-- ==== Sys2Proof/Word.lean ====
section
/-! DEFINITION. Word.lean: the widths of 00_scope.md R6 and R7 (addresses and slots of 64 bits, bytes of 8). -/

namespace Sys2Proof

/-- A byte of a buffer or of a slot (R8, R9), and the width `N_W` of the byteCount field (R6). -/
abbrev Byte := BitVec 8

/-- A 64-bit quantity: a request address (`ADDR_W`) or a data slot (`SLOT_W`), both unsigned (R6, R7). -/
abbrev Word := BitVec 64

/-- The 144 bits of one upstream request record, format REQ (R80). -/
abbrev ReqWord := BitVec 144

end Sys2Proof
end

