-- ==== Sys2Proof/Syntax.lean ====
section
/-! DEFINITION. Syntax.lean: the records presented to the block (30_encoding.md R80, R83) and its fifteen operations
(spec/opcode_table.json; R84, R83). -/

namespace Sys2Proof

/-- The three ports S, B and Q, and with each the device list behind it: `SB.devs`, `BR.devs`, `PB.devs` (R23, R81). -/
inductive Bus where
  | sb
  | br
  | pb
  deriving DecidableEq, Repr

/-- A device reference: "the list and the position in the list" (R83). -/
structure DevRef where
  bus : Bus
  pos : Nat
  deriving DecidableEq, Repr

/-- The admitted byteCounts `N_LEGAL` = 1, 2, 4, 8 (R6, R64, R85). -/
inductive ByteCount where
  | one
  | two
  | four
  | eight
  deriving DecidableEq, Repr

/-- The downstream device call record, format DEV (R83). The spec gives its fields and the width of each, but no
position for any of them in a word, so it is a record here (DESIGN CHOICE, log entry 9). -/
structure DevCall where
  dop  : BitVec 3
  dev  : DevRef
  addr : Word
  n    : Byte
  data : Word
  deriving DecidableEq, Repr

/-- What is presented to the block: an upstream request at port S, B or Q, by an issuer (R80, R237), or a downstream call
at the device port (R83). -/
inductive PortRecord where
  | req (w : ReqWord)
  | dev (c : DevCall)
  deriving DecidableEq, Repr

/-- The ten upstream transactions (R84) and the five downstream device calls (R83), each with the fields its record
carries. The byteCount field is the raw 8 bits of the record: R85 judges it, after the header. -/
inductive Instr where
  | sbRead (n : Byte) (addr slotIn : Word)
  | sbWrite (n : Byte) (addr data : Word)
  | brRead (n : Byte) (addr slotIn : Word)
  | brWrite (n : Byte) (addr data : Word)
  | brCfgRead (n : Byte) (addr slotIn : Word)
  | brCfgWrite (n : Byte) (addr data : Word)
  | pbRead (n : Byte) (addr slotIn : Word)
  | pbWrite (n : Byte) (addr data : Word)
  | pbCfgRead (n : Byte) (addr slotIn : Word)
  | pbCfgWrite (n : Byte) (addr data : Word)
  | devRead (dev : DevRef) (n : Byte) (addr slotIn : Word)
  | devWrite (dev : DevRef) (n : Byte) (addr data : Word)
  | devCfgRead (dev : DevRef) (n : Byte) (addr slotIn : Word)
  | devCfgWrite (dev : DevRef) (n : Byte) (addr data : Word)
  | devIdentify (dev : DevRef)
  deriving DecidableEq, Repr

end Sys2Proof
end

