-- ==== Sys2Proof/WellFormed.lean ====
section
/-! DEFINITION. WellFormed.lean: which instructions the spec admits as they stand, whatever the state. The one such
check is that of the byteCount field (30_encoding.md R85). -/

namespace Sys2Proof

/-- The byteCount field of an instruction. DEV.IDENTIFY has no byteCount operand (R170). -/
def Instr.byteCountField? : Instr → Option Byte
  | .sbRead n _ _ => some n
  | .sbWrite n _ _ => some n
  | .brRead n _ _ => some n
  | .brWrite n _ _ => some n
  | .brCfgRead n _ _ => some n
  | .brCfgWrite n _ _ => some n
  | .pbRead n _ _ => some n
  | .pbWrite n _ _ => some n
  | .pbCfgRead n _ _ => some n
  | .pbCfgWrite n _ _ => some n
  | .devRead _ n _ _ => some n
  | .devWrite _ n _ _ => some n
  | .devCfgRead _ n _ _ => some n
  | .devCfgWrite _ n _ _ => some n
  | .devIdentify _ => none

/-- "`n` must be one of 1, 2, 4, 8" (R85), on every port and every op. -/
def legalCount (n : Byte) : Bool :=
  n == 1 || n == 2 || n == 4 || n == 8

/-- An instruction is well formed when its byteCount, if it has one, is legal (R85). -/
def Instr.wellFormed (i : Instr) : Bool :=
  match i.byteCountField? with
  | some n => legalCount n
  | none => true

end Sys2Proof
end

