-- ==== Sys2Proof/Decode.lean ====
section
/-! DEFINITION. Decode.lean: from a record to an instruction or a rejection by name (30_encoding.md R80 to R84), then
the encoder. The decoder is written from the header table of R84; the encoder from the header layout of R81. -/

namespace Sys2Proof

/-- Why a record spells no operation. -/
inductive Reject where
  /-- `hdr` is not one of the ten legal headers (R84). -/
  | badRequest
  /-- `dop` is 101 to 111, which the fabric never issues (R83, I23; DEDUCED, log entry 17). -/
  | dopNeverIssued (dop : BitVec 3)
  deriving DecidableEq, Repr

/-- `hdr`, bits [143:136] (R80). -/
def reqHdr (w : ReqWord) : Byte := w.extractLsb' 136 8

/-- `n`, bits [135:128] (R80). -/
def reqCount (w : ReqWord) : Byte := w.extractLsb' 128 8

/-- `addr`, bits [127:64] (R80). -/
def reqAddr (w : ReqWord) : Word := w.extractLsb' 64 64

/-- `data`, bits [63:0] (R80). -/
def reqData (w : ReqWord) : Word := w.extractLsb' 0 64

/-- The operation an upstream header spells, with the record's fields: the table of R84. -/
def decodeReq (w : ReqWord) : Except Reject Instr :=
  match (reqHdr w).toNat with
  | 0x00 => .ok (.sbRead (reqCount w) (reqAddr w) (reqData w))
  | 0x01 => .ok (.sbWrite (reqCount w) (reqAddr w) (reqData w))
  | 0x04 => .ok (.brRead (reqCount w) (reqAddr w) (reqData w))
  | 0x05 => .ok (.brWrite (reqCount w) (reqAddr w) (reqData w))
  | 0x06 => .ok (.brCfgRead (reqCount w) (reqAddr w) (reqData w))
  | 0x07 => .ok (.brCfgWrite (reqCount w) (reqAddr w) (reqData w))
  | 0x08 => .ok (.pbRead (reqCount w) (reqAddr w) (reqData w))
  | 0x09 => .ok (.pbWrite (reqCount w) (reqAddr w) (reqData w))
  | 0x0A => .ok (.pbCfgRead (reqCount w) (reqAddr w) (reqData w))
  | 0x0B => .ok (.pbCfgWrite (reqCount w) (reqAddr w) (reqData w))
  | _ => .error .badRequest

/-- The device call that a DEV record spells by its `dop` (R83). -/
def decodeDev (c : DevCall) : Except Reject Instr :=
  match c.dop.toNat with
  | 0 => .ok (.devRead c.dev c.n c.addr c.data)
  | 1 => .ok (.devWrite c.dev c.n c.addr c.data)
  | 2 => .ok (.devCfgRead c.dev c.n c.addr c.data)
  | 3 => .ok (.devCfgWrite c.dev c.n c.addr c.data)
  | 4 => .ok (.devIdentify c.dev)
  | _ => .error (.dopNeverIssued c.dop)

/-- The decoder, total on every record. It judges the header; the byteCount is judged next, by `Instr.wellFormed`
(R95, R204; DESIGN CHOICE, log entry 18). -/
def decode : PortRecord → Except Reject Instr
  | .req w => decodeReq w
  | .dev c => decodeDev c

/-- What R95 says a record is: one operation with its fields, or one of the two faults of the request check. -/
inductive RecordClass where
  | operation (i : Instr)
  | badRequest
  | badByteCount
  | dopNeverIssued (dop : BitVec 3)
  deriving DecidableEq, Repr

/-- The two checks of R95 in their order: first the header, then the byteCount. -/
def classify (r : PortRecord) : RecordClass :=
  match decode r with
  | .error .badRequest => .badRequest
  | .error (.dopNeverIssued d) => .dopNeverIssued d
  | .ok i => if i.wellFormed then .operation i else .badByteCount

/-- A header from its two fields: `hdr[1:0] = op`, `hdr[3:2] = port`, `hdr[7:4] = 0000` (R81). -/
def mkHeader (port op : BitVec 2) : Byte := 0#4 ++ port ++ op

/-- A REQ record from its four fields, most significant first (R80, R94). -/
def mkReq (hdr n : Byte) (addr data : Word) : PortRecord :=
  .req (hdr ++ n ++ addr ++ data)

/-- The record of an instruction: port codes 00 S, 01 B, 10 Q and op codes 00 READ, 01 WRITE, 10 CFGREAD, 11 CFGWRITE
(R81), and the `dop` codes of R83. The fields that DEV.IDENTIFY does not use are zero. -/
def encode : Instr → PortRecord
  | .sbRead n a d => mkReq (mkHeader 0b00 0b00) n a d
  | .sbWrite n a d => mkReq (mkHeader 0b00 0b01) n a d
  | .brRead n a d => mkReq (mkHeader 0b01 0b00) n a d
  | .brWrite n a d => mkReq (mkHeader 0b01 0b01) n a d
  | .brCfgRead n a d => mkReq (mkHeader 0b01 0b10) n a d
  | .brCfgWrite n a d => mkReq (mkHeader 0b01 0b11) n a d
  | .pbRead n a d => mkReq (mkHeader 0b10 0b00) n a d
  | .pbWrite n a d => mkReq (mkHeader 0b10 0b01) n a d
  | .pbCfgRead n a d => mkReq (mkHeader 0b10 0b10) n a d
  | .pbCfgWrite n a d => mkReq (mkHeader 0b10 0b11) n a d
  | .devRead r n a d => .dev ⟨0b000, r, a, n, d⟩
  | .devWrite r n a d => .dev ⟨0b001, r, a, n, d⟩
  | .devCfgRead r n a d => .dev ⟨0b010, r, a, n, d⟩
  | .devCfgWrite r n a d => .dev ⟨0b011, r, a, n, d⟩
  | .devIdentify r => .dev ⟨0b100, r, 0, 0, 0⟩

/-- The record whose bits, numbered as spec/opcode_table.json numbers them, are `w`. The table gives a REQ row 144 bits,
numbered as R80 numbers the record, and a DEV row the 3 bits of `dop`. The other fields of a DEV record have no bits
there: they take the first device of the bridge's list and zeros (DESIGN CHOICE, log entry 9). -/
def recordOfTableWord (nbits w : Nat) : PortRecord :=
  if nbits ≤ 8 then .dev ⟨BitVec.ofNat 3 w, ⟨.br, 0⟩, 0, 0, 0⟩ else .req (BitVec.ofNat 144 w)

/-- The instruction the decoder reads from the table's word `w`. -/
def decodeTableWord (nbits w : Nat) : Option Instr :=
  match decode (recordOfTableWord nbits w) with
  | .ok i => some i
  | .error _ => none

end Sys2Proof
end

