-- ==== Sys2Proof/Config.lean ====
section
/-! DEFINITION. Config.lean: the implementation parameters of 00_scope.md R6 as plain data (the topology, the seed
images, `FWD_CFG_AT_SB`, the number of issuers), and the free values: the OPEN data-path relations of a device. -/

namespace Sys2Proof

/-- Bytes by offset: a configuration buffer (R8), or the bytes of the MEM fixture. It lists only the offsets whose byte
is not `unlistedByte`, in rising order (DESIGN CHOICE, log entry 3). -/
abbrev Memory := List Host.Cell

/-- An AddressWindow, both ends inclusive (R12, R54). -/
structure Window where
  start : Word
  stop  : Word
  deriving DecidableEq, Repr

/-- The configuration side of a device. A PCI device owns a 256-byte buffer (R28); an MMIO device has none (R31). -/
inductive CfgSpace where
  | mmio
  | pci (cfg : Memory)
  deriving DecidableEq, Repr

/-- The data path of a device together with its private state `d.priv` (R32). `param` is a device whose `DevState_d`,
`DataRead_d` and `DataWrite_d` are OPEN: its state is a code number, and what it does is a free value
(`Config.dataRead`, `Config.dataWrite`). `memFixture` is the spec's own instance of the parameter, the fixture MEM of
95_test_vectors.md section 1.1, with its array of bytes (DESIGN CHOICE, log entry 11). Every device has one of the
two, since the data pair is mandatory (R172). -/
inductive DataPath where
  | param (priv : Nat)
  | memFixture (bytes : Memory)
  deriving DecidableEq, Repr

/-- One attached device: its descriptor (name, window, kind; R23), its configuration buffer and its private state.
`id` tells devices apart; it is the subscript `d` of the OPEN parameters (R6; DESIGN CHOICE, log entry 12). -/
structure Device where
  id     : Nat
  name   : String
  window : Window
  config : CfgSpace
  data   : DataPath
  deriving DecidableEq, Repr

/-- The configuration fixed before bring-up (R232 b): `TOPOLOGY` with each device as constructed (`SEED_d` in its
buffer, `DevInit_d` as its private state), `BR_CFG_INIT`, `FWD_CFG_AT_SB` and `N_ISSUERS` (R6). -/
structure Configuration where
  sb         : List Device
  br         : List Device
  pb         : List Device
  brCfgInit  : Memory
  fwdCfgAtSb : Bool
  nIssuers   : Nat
  deriving DecidableEq, Repr

/-- FREE VALUE. `DataRead_d` (R171): the slot and the next private state that device `id` chooses for a data read
(DESIGN CHOICE, log entry 4). The `draw` is the number of device data calls before this one, so that one device may
answer the same call in two ways. -/
opaque Config.dataRead (id draw priv : Nat) (addr : Word) (n : ByteCount) (slotIn : Word) : Word × Nat

/-- FREE VALUE. `DataWrite_d` (R172): the next private state that device `id` chooses for a data write
(DESIGN CHOICE, log entry 4). -/
opaque Config.dataWrite (id draw priv : Nat) (addr : Word) (n : ByteCount) (data : Word) : Nat

/-- A PCI device of the reference topology, at its window (R23, R59). Its seed bytes and its private state are not in
the source: zero by DESIGN CHOICE, log entry 2. -/
def Configuration.refDevice (id : Nat) (name : String) (start stop : Word) : Device :=
  { id := id, name := name, window := ⟨start, stop⟩, config := .pci [], data := .param 0 }

/-- The reference topology REF (R23), in the order in which R23 lists its devices (DESIGN CHOICE, log entry 1), with
the source's `FWD_CFG_AT_SB` (R113) and one issuer (DESIGN CHOICE, log entry 20). -/
def Configuration.ref : Configuration where
  sb := []
  br := [Configuration.refDevice 0 "SMC" 0x200EA001000 0x200EA001100,
         Configuration.refDevice 1 "CDROM" 0x200EA001200 0x200EA001230,
         Configuration.refDevice 2 "HDD" 0x200EA001300 0x200EA001330,
         Configuration.refDevice 3 "XMA" 0x200EA001800 0x200EA001C00]
  pb := []
  brCfgInit := []
  fwdCfgAtSb := false
  nIssuers := 1

end Sys2Proof
end

