-- ==== Sys2Proof/Machine/State.lean ====
section
/-! DEFINITION. Machine/State.lean: the state of the block as plain data (10_state.md R36), the outputs of a
transaction (R82, R200, R211), the requests not yet performed (R13, R70), and the state after bring-up (R231). -/

namespace Sys2Proof.Machine

/-- What an offset that a buffer does not list reads as. DESIGN CHOICE, log entry 2: the reset images are OPEN. -/
def unlistedByte : Byte := 0

/-- The canonical form of a buffer: offsets strictly rising, and no listed byte equal to what an unlisted offset reads
as. Equal contents are then equal data. -/
abbrev Memory.wf (m : Memory) : Prop :=
  m.Pairwise (fun x y => x.1 < y.1) ∧ ∀ c ∈ m, c.2 ≠ unlistedByte

/-- The buffer lists no offset at or above `size`. -/
abbrev Memory.within (m : Memory) (size : Nat) : Prop := ∀ c ∈ m, c.1 < size

/-- The nine outcome tags (60_exceptions.md R200). -/
inductive OutcomeTag where
  | hitDevice
  | hitBridgeCfg
  | missSbUnmapped
  | missPciUnmapped
  | missPciEmpty
  | sbCfgWindow
  | cfgUnknownNumber
  | cfgNotAttached
  | noopCfg
  deriving DecidableEq, Repr

/-- READ or WRITE, in a diagnostic event (R211). -/
inductive Access where
  | read
  | write
  deriving DecidableEq, Repr

/-- The diagnostic events (R211). `swapped` is the byte-swapped data, which only a port S write miss carries. -/
inductive Event where
  | unmapped (port : Bus) (op : Access) (addr : Word) (swapped : Option Word)
  | sbCfgWindow (op : Access) (addr : Word)
  | unknownConfigDevice (dn : BitVec 5) (addr : Word)
  deriving DecidableEq, Repr

/-- What a completed transaction returns. `rsp` is the response record RSP of an upstream request (R82); the others are
what a device returns to a downstream call (R83, R170 to R175). -/
inductive Response where
  | rsp (outcome : OutcomeTag) (slot : Word)
  | devSlot (slot : Word)
  | devDone
  | devCfgSlot (outcome : OutcomeTag) (slot : Word)
  | devCfgDone (outcome : OutcomeTag)
  | identity (name : String) (start stop : Word)
  deriving DecidableEq, Repr

/-- The reasons of the model fault (R203). -/
inductive FaultReason where
  | badRequest
  | badByteCount
  | cfgBounds
  deriving DecidableEq, Repr

/-- A configuration buffer: the bridge's, or that of one device (R203). -/
inductive BufferRef where
  | bridge
  | device (dev : DevRef)
  deriving DecidableEq, Repr

/-- The information of a model fault: "the request record", and for `CfgBounds` "the buffer ... and `off`" (R203). -/
structure FaultInfo where
  record : PortRecord
  span   : Option (BufferRef × Nat)
  deriving DecidableEq, Repr

/-- `(FaultReason, info)` (R33, C15). -/
structure FaultRecord where
  reason : FaultReason
  info   : FaultInfo
  deriving DecidableEq, Repr

/-- Whom the arbiter serves next: an issuer, or the device port (R69, R70; log entries 5 and 10). -/
inductive Grant where
  | issuer (k : Nat)
  | devicePort
  deriving DecidableEq, Repr

/-- The state of the block (R36), with its outputs and the requests still to be performed. -/
structure State where
  /-- `SB.devs`: the devices on the system bus, in registration order, each with its buffer and private state (R23). -/
  sb         : List Device
  /-- `BR.devs`: the devices behind the bridge (R23, R28, R32). -/
  br         : List Device
  /-- `PB.devs`: the devices on the standalone PCI bus (R23, R164). -/
  pb         : List Device
  /-- `BR.cfg`, the bridge's 4096 bytes (R27). -/
  brCfg      : Memory
  /-- The parameter `FWD_CFG_AT_SB`, fixed (R113). -/
  fwdCfgAtSb : Bool
  /-- The ports accept requests (R231 step 6, R232 a; log entry 14). -/
  ready      : Bool
  /-- The sticky model fault (R33). -/
  faulted    : Option FaultRecord
  /-- For each issuer, the requests it has presented and the block has not yet performed, in issue order (R13, R70;
  log entry 16). An issuer presents requests and nothing else (R237). -/
  issuers    : List (List ReqWord)
  /-- The downstream calls presented at the device port itself, in no issuer's name, and not yet performed, oldest first
  (R83; log entry 10). -/
  deviceCalls : List DevCall
  /-- The arbiter's coming choices (R69, R70; log entry 5). -/
  grants     : List Grant
  /-- What the last transaction returned (R82; log entry 15). -/
  response   : Option Response
  /-- The diagnostic stream, oldest first (R211; log entry 15). -/
  events     : List Event
  /-- The model's own count of device data calls, the argument of the free values of Config.lean (log entry 4). -/
  draws      : Nat
  deriving DecidableEq, Repr

/-- Why a step stops. -/
inductive Fault where
  /-- Raised by every instruction and by the step when the block is already faulted: "every later request has no step"
  (R33, R204 check 1). Safe: the spec's run is stuck there too. -/
  | stuck (r : FaultRecord)
  /-- Raised by every instruction and by the step before bring-up completes: "The model gives a request before then no
  step" (R232 a, I17). Safe: the spec has no step there. -/
  | notBroughtUp
  /-- Raised by a DEV instruction whose device reference names no attached device: the spec gives a call to no device
  no meaning (R83; DESIGN CHOICE, log entry 8). Safe: no transaction of the fabric makes such a call. -/
  | noSuchDevice (dev : DevRef)
  deriving DecidableEq, Repr

/-- Why a record or an instruction has no meaning. -/
inductive Refusal where
  /-- Raised by an arm of `exec` whose instruction has no meaning yet. Safe. -/
  | notModelled (mnemonic : String)
  /-- Raised by the step on a DEV record with `dop` 101 to 111, which "the fabric never issues" (R83, I23). Safe. -/
  | dopNeverIssued (dop : BitVec 3)
  deriving DecidableEq, Repr

/-- The outcome of an instruction or a step. -/
abbrev Result := Host.Outcome State Fault Refusal

/-- What a transaction's body does before its response is formed: it completes with a state, an outcome tag and a slot,
or it runs into the span check (R67). -/
inductive Txn where
  | done (s : State) (outcome : OutcomeTag) (slot : Word)
  | bounds (buffer : BufferRef) (off : Nat)

/-- The block before bring-up: nothing constructed or attached, and the ports closed (R231, R232 a). -/
def State.beforeBringUp : State where
  sb := []
  br := []
  pb := []
  brCfg := []
  fwdCfgAtSb := false
  ready := false
  faulted := none
  issuers := []
  deviceCalls := []
  grants := []
  response := none
  events := []
  draws := 0

/-- The block after bring-up with configuration `c`: the values of R36. -/
def State.broughtUp (c : Configuration) : State where
  sb := c.sb
  br := c.br
  pb := c.pb
  brCfg := c.brCfgInit
  fwdCfgAtSb := c.fwdCfgAtSb
  ready := true
  faulted := none
  issuers := List.replicate c.nIssuers []
  deviceCalls := []
  grants := []
  response := none
  events := []
  draws := 0

/-- The machine right after its only reset, bring-up (R230), with the reference topology (R23). No request has been
presented yet. -/
def State.reset : State := State.broughtUp Configuration.ref

end Sys2Proof.Machine
end

