-- ==== Sys2Proof/Machine/AddressMap.lean ====
section
/-! DEFINITION. Machine/AddressMap.lean: the comparators and the first-match mux (20_memory.md R54 to R57), the fixed
windows (R58), and the address-field decodes and device-number table (30_encoding.md R88 to R91, R96). -/

namespace Sys2Proof.Machine

/-- `Contains(w, a)`: unsigned 64-bit, both ends inclusive (R54). -/
def contains (w : Window) (a : Word) : Bool := decide (w.start ≤ a) && decide (a ≤ w.stop)

/-- `first(list, p)` (R10), with the position of the element found. -/
def firstWith (p : Device → Bool) : List Device → Option (Nat × Device)
  | [] => none
  | d :: ds =>
    if p d then some (0, d)
    else match firstWith p ds with
      | some (i, e) => some (i + 1, e)
      | none => none

/-- `Select(L, a)`: the first device whose window contains `a` (R55). -/
def select (l : List Device) (a : Word) : Option (Nat × Device) :=
  firstWith (fun d => contains d.window a) l

/-- `NameMatch(L, names)`: the first device whose name is one of `names`, by exact equality (R136). -/
def nameMatch (l : List Device) (names : List String) : Option (Nat × Device) :=
  firstWith (fun d => decide (d.name ∈ names)) l

/-- `a32 := zext_64(addr[31:0])`, the value the system bus compares (R57). -/
def truncate32 (a : Word) : Word := (a.extractLsb' 0 32).setWidth 64

/-- The width that the comparator of each list uses (R57): 32 at the system bus, 64 behind it. -/
def compareWidth : Bus → Nat
  | .sb => 32
  | .br => 64
  | .pb => 64

/-- The system-bus configuration window `SBCFG` (R58). -/
def sbCfgWin : Window := ⟨0xD0000000, 0xD1000000⟩

/-- The PCI data window `PCIWIN` (R58). -/
def pciWin : Window := ⟨0xEA000000, 0xEA010000⟩

/-- The bridge self-window `BRSELF` (R58). -/
def brSelfWin : Window := ⟨0xD0000000, 0xD0000FFF⟩

/-- The size of `BR.cfg` in bytes (R27). -/
def brCfgSize : Nat := 4096

/-- `DEV_CFG_SIZE`, the size of a device's configuration buffer in bytes (R28). -/
def devCfgSize : Nat := 256

/-- The device-number field `a[19:15]` of a configuration address (R88). -/
def cfgDevice (a : Word) : BitVec 5 := a.extractLsb' 15 5

/-- The bus-number field `a[23:20]`, "not currently used for filtering" (R88). -/
def cfgBus (a : Word) : BitVec 4 := a.extractLsb' 20 4

/-- The register field `a[11:0]`, not used by the bridge (R88). -/
def cfgRegister (a : Word) : BitVec 12 := a.extractLsb' 0 12

/-- The offset into `BR.cfg`: `a & 0xFFFF` (R89). -/
def brSelfOffset (a : Word) : Nat := (a &&& 0xFFFF).toNat

/-- The offset into a device's buffer: `a[7:0]` (R90). -/
def devCfgOffset (a : Word) : Nat := (a.extractLsb' 0 8).toNat

/-- `CFGADDR(bus, dev, reg)` (R91). -/
def cfgAddr (bus : BitVec 4) (dev : BitVec 5) (reg : BitVec 12) : Word :=
  0xD0000000 ||| (bus.setWidth 64 <<< 20) ||| (dev.setWidth 64 <<< 15) ||| reg.setWidth 64

/-- `DevNameTable` (R96). -/
def devNames (dn : BitVec 5) : List String :=
  match dn.toNat with
  | 0x00 => ["XMA"]
  | 0x01 => ["CDROM"]
  | 0x02 => ["HDD"]
  | 0x04 => ["OHCI0", "EHCI0"]
  | 0x05 => ["OHCI1", "EHCI1"]
  | 0x07 => ["FastEthernet"]
  | 0x08 => ["SFC"]
  | 0x09 => ["0x580C"]
  | 0x0A => ["SMC"]
  | 0x0F => ["0x5841"]
  | _ => []

/-- Where the system bus sends a request (R110). -/
inductive SbRoute where
  | direct (pos : Nat) (d : Device)
  | cfgWin
  | pciWin
  | miss

/-- `SbRoute(addr)`: the direct list in registration order, then `SBCFG`, then `PCIWIN`, then a miss (R110). -/
def sbRoute (devs : List Device) (addr : Word) : SbRoute :=
  match select devs (truncate32 addr) with
  | some (i, d) => .direct i d
  | none =>
    if contains sbCfgWin (truncate32 addr) then .cfgWin
    else if contains Sys2Proof.Machine.pciWin (truncate32 addr) then .pciWin
    else .miss

/-- Where a PCI data path sends a request (R130, R165). -/
inductive DataRoute where
  | empty
  | dev (pos : Nat) (d : Device)
  | miss

/-- `BrDataRoute` and `PbDataRoute`, over their own lists: all 64 bits of the address (R130, R165). -/
def dataRoute (devs : List Device) (addr : Word) : DataRoute :=
  match devs with
  | [] => .empty
  | _ :: _ =>
    match select devs addr with
    | some (i, d) => .dev i d
    | none => .miss

/-- Where the bridge sends a configuration request (R133). -/
inductive CfgRoute where
  | self (off : Nat)
  | unknown (dn : BitVec 5)
  | notAttached (dn : BitVec 5)
  | dev (pos : Nat) (d : Device)

/-- `BrCfgRoute(addr)`: `BRSELF` on all 64 bits (log entry 19), then the device number's names, then the name match
(R133). -/
def cfgRoute (devs : List Device) (addr : Word) : CfgRoute :=
  if contains brSelfWin addr then .self (brSelfOffset addr)
  else match devNames (cfgDevice addr) with
    | [] => .unknown (cfgDevice addr)
    | n :: ns =>
      match nameMatch devs (n :: ns) with
      | some (i, d) => .dev i d
      | none => .notAttached (cfgDevice addr)

end Sys2Proof.Machine
end

