-- ==== Sys2Proof/Machine/Operands.lean ====
section
/-! DEFINITION. Machine/Operands.lean: the operands of a transaction: the byteCount (30_encoding.md R85), the slot and
its bytes (00_scope.md R9), and the moves between a slot and a buffer (20_memory.md R61 to R63). -/

namespace Sys2Proof.Machine

/-- The byteCount that the 8 bits of the field spell, if it is legal (R85). -/
def byteCount? (n : Byte) : Option ByteCount :=
  match n.toNat with
  | 1 => some .one
  | 2 => some .two
  | 4 => some .four
  | 8 => some .eight
  | _ => none

/-- How many bytes a byteCount moves (R64). -/
def bytes : ByteCount → Nat
  | .one => 1
  | .two => 2
  | .four => 4
  | .eight => 8

/-- `SlotByte(s, i) = s[8i+7:8i]` (R9). -/
def slotByte (s : Word) (i : Nat) : Byte := s.extractLsb' (8 * i) 8

/-- `SlotPut(s, i, b)`: `s` with bits `[8i+7:8i]` replaced by `b` (R9). -/
def slotPut (s : Word) (i : Nat) (b : Byte) : Word :=
  (s &&& ~~~((0xFF : Word) <<< (8 * i))) ||| (b.setWidth 64 <<< (8 * i))

/-- `s` with its bytes 0 to n-1 taken from `f`: bytes n to 7 keep their value (R9, R63). -/
def fillSlot (f : Nat → Byte) : Nat → Word → Word
  | 0, s => s
  | n + 1, s => slotPut (fillSlot f n s) n (f n)

/-- The low `n` bytes of a slot, the others zero: what of a write's data may have an effect (R62). -/
def lowBytes (n : Nat) (s : Word) : Word := fillSlot (slotByte s) n 0

/-- `bswap64(v)[8i+7:8i] = v[8(7-i)+7:8(7-i)]` (R65). -/
def bswap64 (v : Word) : Word := fillSlot (fun i => slotByte v (7 - i)) 8 0

/-- The byte of a buffer at an offset. -/
def Memory.read : Memory → Nat → Byte
  | [], _ => unlistedByte
  | c :: m, off => if c.1 = off then c.2 else Memory.read m off

/-- A buffer with the byte at one offset replaced, in canonical form. -/
def Memory.write : Memory → Nat → Byte → Memory
  | [], off, b => if b = unlistedByte then [] else [(off, b)]
  | c :: m, off, b =>
    if off < c.1 then (if b = unlistedByte then c :: m else (off, b) :: c :: m)
    else if off = c.1 then (if b = unlistedByte then m else (off, b) :: m)
    else c :: Memory.write m off b

/-- `CopyToSlot(s, buf, off, n)` (R9): buffer byte `off + i` is slot byte `i` (R61). -/
def copyToSlot (s : Word) (buf : Memory) (off n : Nat) : Word :=
  fillSlot (fun i => Memory.read buf (off + i)) n s

/-- `CopyFromSlot(buf, off, s, n)` (R9): slot byte `i` becomes buffer byte `off + i` (R61). -/
def copyFromSlot (buf : Memory) (off : Nat) (s : Word) : Nat → Memory
  | 0 => buf
  | n + 1 => Memory.write (copyFromSlot buf off s n) (off + n) (slotByte s n)

end Sys2Proof.Machine
end

