-- ==== Sys2Proof/Machine/Flags.lean ====
section
/-! DEFINITION. Machine/Flags.lean: the outcome tag, which takes the place of flags (00_scope.md R11, 10_state.md R22):
its codes and classes, the response record, and the sentinel policy (60_exceptions.md R200, R201; R82). -/

namespace Sys2Proof.Machine

/-- The 8-bit code of an outcome tag (R200). -/
def outcomeCode : OutcomeTag → Byte
  | .hitDevice => 0x00
  | .hitBridgeCfg => 0x01
  | .missSbUnmapped => 0x10
  | .missPciUnmapped => 0x11
  | .missPciEmpty => 0x12
  | .sbCfgWindow => 0x13
  | .cfgUnknownNumber => 0x20
  | .cfgNotAttached => 0x21
  | .noopCfg => 0x30

/-- The two classes of the source's error taxonomy (R200). -/
inductive MissClass where
  | unmappedAddress
  | unknownConfigDevice
  deriving DecidableEq, Repr

/-- The source class of an outcome tag; none for a hit and for a configuration entry point that does no work (R200). -/
def outcomeClass : OutcomeTag → Option MissClass
  | .hitDevice => none
  | .hitBridgeCfg => none
  | .missSbUnmapped => some .unmappedAddress
  | .missPciUnmapped => some .unmappedAddress
  | .missPciEmpty => some .unmappedAddress
  | .sbCfgWindow => some .unmappedAddress
  | .cfgUnknownNumber => some .unknownConfigDevice
  | .cfgNotAttached => some .unknownConfigDevice
  | .noopCfg => none

/-- The response record RSP: outcome in bits [71:64], slot in bits [63:0] (R82). -/
def rspRecord (o : OutcomeTag) (slot : Word) : BitVec 72 := outcomeCode o ++ slot

/-- The routes on which a read returns a miss value (R201). -/
inductive MissRoute where
  | sbMiss
  | sbCfgWin
  | pciEmpty
  | pciMiss
  | brNotAttached
  | brUnknown
  deriving DecidableEq, Repr

/-- `SB_MISS` (R6). -/
def sbMissValue : Word := 0x0000000000000000

/-- `PCI_MISS` (R6). -/
def pciMissValue : Word := 0xFFFFFFFFFFFFFFFF

/-- `MissSlot(route, slot_in)`, the sentinel policy as one function (R201). The bridge and the standalone PCI bus have
the same sentinel on an empty list and on a miss. -/
def missSlot (r : MissRoute) (slotIn : Word) : Word :=
  match r with
  | .sbMiss => sbMissValue
  | .sbCfgWin => sbMissValue
  | .pciEmpty => pciMissValue
  | .pciMiss => pciMissValue
  | .brNotAttached => pciMissValue
  | .brUnknown => slotIn

end Sys2Proof.Machine
end

