-- ==== Sys2Proof/Machine/Ops.lean ====
section
/-! DEFINITION. Machine/Ops.lean: the operations that every transaction shares: the checks made before it, raising the
model fault, its response and events, the device lists (60_exceptions.md R203, R204, R211; 10_state.md R33), the
arbiter (20_memory.md R69, R70) and bring-up (70_reset_and_hazards.md R231). -/

namespace Sys2Proof.Machine

/-- `raise Fault(reason)`: "sets `faulted <- some (r, info)` ... and makes no other change in that transaction"; the
transaction "returns no response" (R33, R203). A faulted block is never resumed, so there is no return beside it (R208).
DEDUCED, log entry 13: the faulting transaction answers this state, and the next one is stuck. -/
def raiseFault (s : State) (reason : FaultReason) (info : FaultInfo) : State :=
  { s with faulted := some ⟨reason, info⟩, response := none }

/-- Check 1 of R204: a request presented to a faulted block, or before bring-up completes (R232 a), has no step. -/
def gate (s : State) (k : Result) : Result :=
  match s.faulted with
  | some r => .fault (.stuck r)
  | none => if s.ready then k else .fault .notBroughtUp

/-- Check 3 of R204: the byteCount, on every port and every op (R85; for device calls DEDUCED, log entry 7). -/
def withCount (rec : PortRecord) (n : Byte) (s : State) (k : ByteCount → Result) : Result :=
  match byteCount? n with
  | some c => k c
  | none => .next (raiseFault s .badByteCount ⟨rec, none⟩)

/-- The end of a transaction begun in `s`: its response, or the fault of its span check (R67, R203). -/
def settle (rec : PortRecord) (mk : OutcomeTag → Word → Response) (s : State) : Txn → Result
  | .done t o v => .next { t with response := some (mk o v) }
  | .bounds b off => .next (raiseFault s .cfgBounds ⟨rec, some (b, off)⟩)

/-- `emit(ev)` (R10, R211). -/
def emit (s : State) (ev : Event) : State := { s with events := s.events ++ [ev] }

/-- The device list behind a port (R23). -/
def devices (s : State) : Bus → List Device
  | .sb => s.sb
  | .br => s.br
  | .pb => s.pb

/-- The state with the device list behind one port replaced. -/
def setDevices (s : State) (b : Bus) (l : List Device) : State :=
  match b with
  | .sb => { s with sb := l }
  | .br => { s with br := l }
  | .pb => { s with pb := l }

/-- The device a reference names, if there is one (R83). -/
def deviceAt? (s : State) (r : DevRef) : Option Device := (devices s r.bus)[r.pos]?

/-- The state with the device at a reference replaced. -/
def putDevice (s : State) (r : DevRef) (d : Device) : State :=
  setDevices s r.bus ((devices s r.bus).set r.pos d)

/-- An upstream transaction: the checks of R204, then its body, then its response record (R82). -/
def transact (rec : PortRecord) (n : Byte) (s : State) (body : ByteCount → Txn) : Result :=
  gate s (withCount rec n s fun c => settle rec .rsp s (body c))

/-- A downstream call presented at the device port: the same checks, then the device it names (R83). A model fault of
such a call records the call record `rec`, where R203 says "the request record": there is no upstream request (DESIGN
CHOICE, log entry 23; that a bad byteCount faults here at all: DEDUCED, log entry 7). -/
def callDevice (rec : PortRecord) (dev : DevRef) (n : Byte) (s : State) (mk : OutcomeTag → Word → Response)
    (body : ByteCount → Device → Txn) : Result :=
  gate s (withCount rec n s fun c =>
    match deviceAt? s dev with
    | none => .fault (.noSuchDevice dev)
    | some d => settle rec mk s (body c d))

/-- The first request of issuer number `k`, and the queues without it. -/
def popIssuer : List (List ReqWord) → Nat → Option (ReqWord × List (List ReqWord))
  | [], _ => none
  | [] :: _, 0 => none
  | (w :: q) :: qs, 0 => some (w, q :: qs)
  | q :: qs, k + 1 =>
    match popIssuer qs k with
    | some (w, qs') => some (w, q :: qs')
    | none => none

/-- The first request of the first issuer that has one, and the queues without it. -/
def popFirst : List (List ReqWord) → Option (ReqWord × List (List ReqWord))
  | [] => none
  | (w :: q) :: qs => some (w, q :: qs)
  | [] :: qs =>
    match popFirst qs with
    | some (w, qs') => some (w, [] :: qs')
    | none => none

/-- The request that a pick among the issuers' queues takes, and the state without it. -/
def takeRequest (s : State) : Option (ReqWord × List (List ReqWord)) → Option (PortRecord × State)
  | some (w, qs) => some (.req w, { s with issuers := qs })
  | none => none

/-- The oldest call presented at the device port, and the state without it. -/
def takeCall (s : State) : Option (PortRecord × State) :=
  match s.deviceCalls with
  | c :: cs => some (.dev c, { s with deviceCalls := cs })
  | [] => none

/-- What a grant names: the oldest request of one issuer, or the oldest call at the device port. -/
def takeGranted (s : State) : Grant → Option (PortRecord × State)
  | .issuer k => takeRequest s (popIssuer s.issuers k)
  | .devicePort => takeCall s

/-- What is served without a grant: the first issuer that has presented something, else the device port. -/
def takeAny (s : State) : Option (PortRecord × State) :=
  match takeRequest s (popFirst s.issuers) with
  | some p => some p
  | none => takeCall s

/-- The next transaction of the total order (R69, R70): the record picked, and the state without it. A grant that names
nobody with something presented is passed over, as if there were none (DESIGN CHOICE, log entry 5). -/
def arbitrate (s : State) : Option (PortRecord × State) :=
  match s.grants with
  | [] => takeAny s
  | g :: gs =>
    match takeGranted { s with grants := gs } g with
    | some p => some p
    | none => takeAny { s with grants := gs }

/-- What an issuer sees of a response (R237, R22): the slot of its request, not the outcome tag, and nothing of a call
made at the device port. -/
def issuerSlot : Response → Option Word
  | .rsp _ slot => some slot
  | .devSlot _ => none
  | .devDone => none
  | .devCfgSlot _ _ => none
  | .devCfgDone _ => none
  | .identity _ _ _ => none

/-- A configuration buffer of `size` bytes as R24 and R36 admit it. -/
abbrev imageOk (m : Memory) (size : Nat) : Prop := Memory.wf m ∧ Memory.within m size

/-- The configuration buffer of a device holds 256 bytes (R28). -/
def cfgSpaceOk : CfgSpace → Bool
  | .mmio => true
  | .pci m => decide (imageOk m devCfgSize)

/-- The bytes of the MEM fixture cover the offsets `0 .. e-s` of its window (95_test_vectors.md section 1.1). -/
def dataPathOk (w : Window) : DataPath → Bool
  | .param _ => true
  | .memFixture m => decide (imageOk m ((w.stop - w.start).toNat + 1))

/-- "every window has `start <= end`" (R24), and the device's buffers have their sizes (R28). -/
def deviceOk (d : Device) : Bool :=
  decide (d.window.start ≤ d.window.stop) && cfgSpaceOk d.config && dataPathOk d.window d.data

/-- Well-formedness of a configuration (R24): windows, "every device appears in exactly one of the three lists", the
4096-byte image (R29), and at least one issuer (R212). Overlapping windows and equal names are admitted. -/
def configurationOk (c : Configuration) : Bool :=
  (c.sb ++ c.br ++ c.pb).all deviceOk
    && decide ((c.sb ++ c.br ++ c.pb).map (·.id)).Nodup
    && decide (imageOk c.brCfgInit brCfgSize)
    && decide (1 ≤ c.nIssuers)

/-- Bring-up step 3: "The bridge is constructed with `BR.cfg <- BR_CFG_INIT`" (R231), with its parameter (R113). -/
def constructBridge (c : Configuration) (s : State) : State :=
  { s with brCfg := c.brCfgInit, fwdCfgAtSb := c.fwdCfgAtSb }

/-- Bring-up steps 2 and 4: the devices, constructed with their seeds, are attached in their configured order (R231). -/
def attachDevices (c : Configuration) (s : State) : State :=
  { s with sb := c.sb, br := c.br, pb := c.pb }

/-- Bring-up step 5: `faulted <- none` (R231). -/
def clearFault (s : State) : State := { s with faulted := none }

/-- Bring-up step 6: "The ports accept requests" of `N_ISSUERS` issuers, none of which has presented any (R231, R212).
-/
def openPorts (c : Configuration) (s : State) : State :=
  { s with ready := true, issuers := List.replicate c.nIssuers [] }

/-- The bring-up sequence (R231). Step 1: "An ill-formed configuration has no run". -/
def bringUp (c : Configuration) : Option State :=
  if configurationOk c then
    some (openPorts c (clearFault (attachDevices c (constructBridge c State.beforeBringUp))))
  else none

end Sys2Proof.Machine
end

