-- ==== Sys2Proof/Machine/DevicePort.lean ====
section
/-! DEFINITION. Machine/DevicePort.lean: the downstream device calls (43_device_port.md R170 to R175), as the fabric
issues them inside a transaction and as the five DEV instructions. -/

namespace Sys2Proof.Machine

/-- `k(addr) := (addr - s) mod 2^W`, the offset of an access in the MEM fixture (95_test_vectors.md section 1.1). -/
def memOffset (b : Bus) (w : Window) (addr : Word) : Nat :=
  (addr - w.start).toNat % 2 ^ compareWidth b

/-- `e - s`, the last offset of the MEM fixture (95_test_vectors.md section 1.1). -/
def memLast (w : Window) : Nat := (w.stop - w.start).toNat

/-- `DataRead_d` of the MEM fixture: bytes past the window read 0. -/
def memFixtureRead (w : Window) (m : Memory) (k n : Nat) (slotIn : Word) : Word :=
  fillSlot (fun i => if k + i ≤ memLast w then Memory.read m (k + i) else 0) n slotIn

/-- `DataWrite_d` of the MEM fixture: bytes past the window are dropped. -/
def memFixtureWrite (w : Window) (m : Memory) (k : Nat) (data : Word) : Nat → Memory
  | 0 => m
  | n + 1 =>
    if k + n ≤ memLast w then Memory.write (memFixtureWrite w m k data n) (k + n) (slotByte data n)
    else memFixtureWrite w m k data n

/-- The choice of `(slot', p')` in `DataRead_d` (R171) by a device on the list of `b`, at draw number `draw`. -/
def dataRead (b : Bus) (d : Device) (draw : Nat) (c : ByteCount) (addr slotIn : Word) : Word × DataPath :=
  match d.data with
  | .param p =>
    ((Config.dataRead d.id draw p addr c slotIn).1, .param (Config.dataRead d.id draw p addr c slotIn).2)
  | .memFixture m => (memFixtureRead d.window m (memOffset b d.window addr) (bytes c) slotIn, .memFixture m)

/-- The choice of `p'` in `DataWrite_d` (R172). "Its result must not depend on `data[63:8n]`". -/
def dataWrite (b : Bus) (d : Device) (draw : Nat) (c : ByteCount) (addr data : Word) : DataPath :=
  match d.data with
  | .param p => .param (Config.dataWrite d.id draw p addr c (lowBytes (bytes c) data))
  | .memFixture m => .memFixture (memFixtureWrite d.window m (memOffset b d.window addr) data (bytes c))

/-- The state with the private state of device `d`, at reference `r`, replaced after a data call. -/
def putData (s : State) (r : DevRef) (d : Device) (p : DataPath) : State :=
  { putDevice s r { d with data := p } with draws := s.draws + 1 }

/-- DEV.READ (R171). It never reads or writes a configuration buffer. -/
def deviceRead (r : DevRef) (d : Device) (c : ByteCount) (addr slotIn : Word) (s : State) : Txn :=
  .done (putData s r d (dataRead r.bus d s.draws c addr slotIn).2) .hitDevice
    (dataRead r.bus d s.draws c addr slotIn).1

/-- DEV.WRITE (R172). The slot echoes the data (R82). -/
def deviceWrite (r : DevRef) (d : Device) (c : ByteCount) (addr data : Word) (s : State) : Txn :=
  .done (putData s r d (dataWrite r.bus d s.draws c addr data)) .hitDevice data

/-- DEV.CFGREAD: on a PCI device the span check and the copy (R173), on an MMIO device nothing (R175). -/
def deviceCfgRead (r : DevRef) (d : Device) (c : ByteCount) (addr slotIn : Word) (s : State) : Txn :=
  match d.config with
  | .mmio => .done s .noopCfg slotIn
  | .pci buf =>
    if devCfgOffset addr + bytes c > devCfgSize then .bounds (.device r) (devCfgOffset addr)
    else .done s .hitDevice (copyToSlot slotIn buf (devCfgOffset addr) (bytes c))

/-- DEV.CFGWRITE: on a PCI device the span check and the copy (R174), on an MMIO device nothing (R175). -/
def deviceCfgWrite (r : DevRef) (d : Device) (c : ByteCount) (addr data : Word) (s : State) : Txn :=
  match d.config with
  | .mmio => .done s .noopCfg data
  | .pci buf =>
    if devCfgOffset addr + bytes c > devCfgSize then .bounds (.device r) (devCfgOffset addr)
    else .done (putDevice s r { d with config := .pci (copyFromSlot buf (devCfgOffset addr) data (bytes c)) })
      .hitDevice data

/-- DEV.READ as an instruction presented at the device port (DESIGN CHOICE, log entry 10): the device returns a slot
(R83). -/
def execDevRead (dev : DevRef) (n : Byte) (addr slotIn : Word) (s : State) : Result :=
  callDevice (encode (.devRead dev n addr slotIn)) dev n s (fun _ v => .devSlot v) fun c d =>
    deviceRead dev d c addr slotIn s

/-- DEV.WRITE as an instruction: it returns nothing (R83). -/
def execDevWrite (dev : DevRef) (n : Byte) (addr data : Word) (s : State) : Result :=
  callDevice (encode (.devWrite dev n addr data)) dev n s (fun _ _ => .devDone) fun c d =>
    deviceWrite dev d c addr data s

/-- DEV.CFGREAD as an instruction: the device returns a slot and an outcome (R173, R175). -/
def execDevCfgRead (dev : DevRef) (n : Byte) (addr slotIn : Word) (s : State) : Result :=
  callDevice (encode (.devCfgRead dev n addr slotIn)) dev n s .devCfgSlot fun c d =>
    deviceCfgRead dev d c addr slotIn s

/-- DEV.CFGWRITE as an instruction: the device returns an outcome (R174, R175). -/
def execDevCfgWrite (dev : DevRef) (n : Byte) (addr data : Word) (s : State) : Result :=
  callDevice (encode (.devCfgWrite dev n addr data)) dev n s (fun o _ => .devCfgDone o) fun c d =>
    deviceCfgWrite dev d c addr data s

/-- DEV.IDENTIFY: "return (d.name, d.window.start, d.window.end)"; it reads no state and writes none (R170). -/
def execDevIdentify (dev : DevRef) (s : State) : Result :=
  gate s (match deviceAt? s dev with
    | none => .fault (.noSuchDevice dev)
    | some d => .next { s with response := some (.identity d.name d.window.start d.window.stop) })

end Sys2Proof.Machine
end

