-- ==== Sys2Proof/Machine/Bridge.lean ====
section
/-! DEFINITION. Machine/Bridge.lean: port B, the PCI bridge: its data path and its configuration path
(41_pci_bridge.md R131, R132, R134, R135). -/

namespace Sys2Proof.Machine

/-- A PCI data read on the list of `b`: BR.READ (R131), and PB.READ, which has the same algorithm (R160, R165). -/
def pciRead (b : Bus) (c : ByteCount) (addr slotIn : Word) (s : State) : Txn :=
  match dataRoute (devices s b) addr with
  | .empty => .done (emit s (.unmapped b .read addr none)) .missPciEmpty (missSlot .pciEmpty slotIn)
  | .dev i d => deviceRead ⟨b, i⟩ d c addr slotIn s
  | .miss => .done (emit s (.unmapped b .read addr none)) .missPciUnmapped (missSlot .pciMiss slotIn)

/-- A PCI data write on the list of `b`: BR.WRITE (R132) and PB.WRITE (R161). On an empty list it is silent (C12). -/
def pciWrite (b : Bus) (c : ByteCount) (addr data : Word) (s : State) : Txn :=
  match dataRoute (devices s b) addr with
  | .empty => .done s .missPciEmpty data
  | .dev i d => deviceWrite ⟨b, i⟩ d c addr data s
  | .miss => .done (emit s (.unmapped b .write addr none)) .missPciUnmapped data

/-- BR.CFGREAD (R134). -/
def brCfgRead (c : ByteCount) (addr slotIn : Word) (s : State) : Txn :=
  match cfgRoute s.br addr with
  | .self off =>
    if off + bytes c > brCfgSize then .bounds .bridge off
    else .done s .hitBridgeCfg (copyToSlot slotIn s.brCfg off (bytes c))
  | .unknown dn => .done (emit s (.unknownConfigDevice dn addr)) .cfgUnknownNumber (missSlot .brUnknown slotIn)
  | .notAttached dn => .done (emit s (.unknownConfigDevice dn addr)) .cfgNotAttached (missSlot .brNotAttached slotIn)
  | .dev i d => deviceCfgRead ⟨.br, i⟩ d c addr slotIn s

/-- BR.CFGWRITE (R135). -/
def brCfgWrite (c : ByteCount) (addr data : Word) (s : State) : Txn :=
  match cfgRoute s.br addr with
  | .self off =>
    if off + bytes c > brCfgSize then .bounds .bridge off
    else .done { s with brCfg := copyFromSlot s.brCfg off data (bytes c) } .hitBridgeCfg data
  | .unknown dn => .done (emit s (.unknownConfigDevice dn addr)) .cfgUnknownNumber data
  | .notAttached dn => .done (emit s (.unknownConfigDevice dn addr)) .cfgNotAttached data
  | .dev i d => deviceCfgWrite ⟨.br, i⟩ d c addr data s

/-- BR.READ (R131). -/
def execBrRead (n : Byte) (addr slotIn : Word) (s : State) : Result :=
  transact (encode (.brRead n addr slotIn)) n s fun c => pciRead .br c addr slotIn s

/-- BR.WRITE (R132). -/
def execBrWrite (n : Byte) (addr data : Word) (s : State) : Result :=
  transact (encode (.brWrite n addr data)) n s fun c => pciWrite .br c addr data s

/-- BR.CFGREAD (R134). -/
def execBrCfgRead (n : Byte) (addr slotIn : Word) (s : State) : Result :=
  transact (encode (.brCfgRead n addr slotIn)) n s fun c => brCfgRead c addr slotIn s

/-- BR.CFGWRITE (R135). -/
def execBrCfgWrite (n : Byte) (addr data : Word) (s : State) : Result :=
  transact (encode (.brCfgWrite n addr data)) n s fun c => brCfgWrite c addr data s

end Sys2Proof.Machine
end

