-- ==== Sys2Proof/Machine/PciBus.lean ====
section
/-! DEFINITION. Machine/PciBus.lean: port Q, the standalone PCI bus (42_pci_bus.md R160 to R165). Its list is its own
and no route of the system bus or the bridge leads to it (R164). -/

namespace Sys2Proof.Machine

/-- PB.READ (R160). -/
def execPbRead (n : Byte) (addr slotIn : Word) (s : State) : Result :=
  transact (encode (.pbRead n addr slotIn)) n s fun c => pciRead .pb c addr slotIn s

/-- PB.WRITE (R161). -/
def execPbWrite (n : Byte) (addr data : Word) (s : State) : Result :=
  transact (encode (.pbWrite n addr data)) n s fun c => pciWrite .pb c addr data s

/-- PB.CFGREAD: "intentionally perform no work"; the slot is returned as sent (R162). -/
def execPbCfgRead (n : Byte) (addr slotIn : Word) (s : State) : Result :=
  transact (encode (.pbCfgRead n addr slotIn)) n s fun _ => .done s .noopCfg slotIn

/-- PB.CFGWRITE: no state is written (R163). -/
def execPbCfgWrite (n : Byte) (addr data : Word) (s : State) : Result :=
  transact (encode (.pbCfgWrite n addr data)) n s fun _ => .done s .noopCfg data

end Sys2Proof.Machine
end

