-- ==== Sys2Proof/Machine/SystemBus.lean ====
section
/-! DEFINITION. Machine/SystemBus.lean: port S, the system bus (40_system_bus.md R111 to R113). -/

namespace Sys2Proof.Machine

/-- SB.READ (R111). Devices and the bridge receive the original 64-bit address (R86). -/
def sbRead (c : ByteCount) (addr slotIn : Word) (s : State) : Txn :=
  match sbRoute s.sb addr with
  | .direct i d => deviceRead ⟨.sb, i⟩ d c addr slotIn s
  | .cfgWin =>
    if s.fwdCfgAtSb then brCfgRead c addr slotIn s
    else .done (emit s (.sbCfgWindow .read addr)) .sbCfgWindow (missSlot .sbCfgWin slotIn)
  | .pciWin => pciRead .br c addr slotIn s
  | .miss => .done (emit s (.unmapped .sb .read addr none)) .missSbUnmapped (missSlot .sbMiss slotIn)

/-- SB.WRITE (R112). Its miss event carries the byte-swapped data (R65). -/
def sbWrite (c : ByteCount) (addr data : Word) (s : State) : Txn :=
  match sbRoute s.sb addr with
  | .direct i d => deviceWrite ⟨.sb, i⟩ d c addr data s
  | .cfgWin =>
    if s.fwdCfgAtSb then brCfgWrite c addr data s
    else .done (emit s (.sbCfgWindow .write addr)) .sbCfgWindow data
  | .pciWin => pciWrite .br c addr data s
  | .miss => .done (emit s (.unmapped .sb .write addr (some (bswap64 data)))) .missSbUnmapped data

/-- SB.READ (R111). -/
def execSbRead (n : Byte) (addr slotIn : Word) (s : State) : Result :=
  transact (encode (.sbRead n addr slotIn)) n s fun c => sbRead c addr slotIn s

/-- SB.WRITE (R112). -/
def execSbWrite (n : Byte) (addr data : Word) (s : State) : Result :=
  transact (encode (.sbWrite n addr data)) n s fun c => sbWrite c addr data s

end Sys2Proof.Machine
end

