-- ==== Sys2Proof/Machine/Dispatch.lean ====
section
/-! DEFINITION. Machine/Dispatch.lean: one arm per instruction, each one call of its meaning. -/

namespace Sys2Proof.Machine

def exec (i : Instr) (s : State) : Host.Outcome State Fault Refusal :=
  match i with
  | .sbRead n addr slotIn => Sys2Proof.Machine.execSbRead n addr slotIn s
  | .sbWrite n addr data => Sys2Proof.Machine.execSbWrite n addr data s
  | .brRead n addr slotIn => Sys2Proof.Machine.execBrRead n addr slotIn s
  | .brWrite n addr data => Sys2Proof.Machine.execBrWrite n addr data s
  | .brCfgRead n addr slotIn => Sys2Proof.Machine.execBrCfgRead n addr slotIn s
  | .brCfgWrite n addr data => Sys2Proof.Machine.execBrCfgWrite n addr data s
  | .pbRead n addr slotIn => Sys2Proof.Machine.execPbRead n addr slotIn s
  | .pbWrite n addr data => Sys2Proof.Machine.execPbWrite n addr data s
  | .pbCfgRead n addr slotIn => Sys2Proof.Machine.execPbCfgRead n addr slotIn s
  | .pbCfgWrite n addr data => Sys2Proof.Machine.execPbCfgWrite n addr data s
  | .devRead dev n addr slotIn => Sys2Proof.Machine.execDevRead dev n addr slotIn s
  | .devWrite dev n addr data => Sys2Proof.Machine.execDevWrite dev n addr data s
  | .devCfgRead dev n addr slotIn => Sys2Proof.Machine.execDevCfgRead dev n addr slotIn s
  | .devCfgWrite dev n addr data => Sys2Proof.Machine.execDevCfgWrite dev n addr data s
  | .devIdentify dev => Sys2Proof.Machine.execDevIdentify dev s

end Sys2Proof.Machine
end

