-- ==== Sys2Proof/Machine/Step.lean ====
section
/-! DEFINITION. Machine/Step.lean: one step performs one transaction (20_memory.md R69): the request that the arbiter
picks, in the check order of 60_exceptions.md R204. -/

namespace Sys2Proof.Machine

/-- The block with one record to perform: check 2 of R204, the header, then the operation. -/
def perform (r : PortRecord) (s : State) : Result :=
  match decode r with
  | .ok i => exec i s
  | .error .badRequest => .next (raiseFault s .badRequest ⟨r, none⟩)
  | .error (.dopNeverIssued d) => .refused (.dopNeverIssued d)

/-- One step. With no request presented the block does nothing (DESIGN CHOICE, log entry 6). -/
def step (s : State) : Host.Outcome State Fault Refusal :=
  gate s (match arbitrate s with
    | some (r, t) => perform r t
    | none => .next s)

/-- The state in which the table's word `w` is the next record presented and the arbiter serves it: a REQ record as the
next request of issuer 0, a DEV record as the next call at the device port. -/
def State.withFetchWord (s : State) (nbits w : Nat) : State :=
  match recordOfTableWord nbits w with
  | .req r => { s with issuers := (r :: s.issuers.headD []) :: s.issuers.tail, grants := .issuer 0 :: s.grants }
  | .dev c => { s with deviceCalls := c :: s.deviceCalls, grants := .devicePort :: s.grants }

end Sys2Proof.Machine
end

