-- ==== Sys2Proof/Machine/PseudoOps.lean ====
section
/-! DEFINITION. Machine/PseudoOps.lean: the assembler syntax of a request (30_encoding.md R92), and the
pseudo-instructions and their expansions (R93). -/

namespace Sys2Proof.Machine

/-- `OP := READ | WRITE | CFGREAD | CFGWRITE` (R92). -/
inductive AsmOp where
  | read
  | write
  | cfgRead
  | cfgWrite
  deriving DecidableEq, Repr

/-- `<PORT>.<OP> <addr>, <n> [, <data>]` (R92). -/
structure AsmLine where
  port : Bus
  op   : AsmOp
  addr : Word
  n    : ByteCount
  data : Option Word
  deriving DecidableEq, Repr

/-- The byteCount literal of R92 as the record's field. -/
def asmCount (c : ByteCount) : Byte := BitVec.ofNat 8 (bytes c)

/-- The request that a line spells (R92): "SB takes READ and WRITE only"; the data is "required for WRITE and CFGWRITE;
for READ and CFGREAD it is the slot sent in, and it defaults to 0 when omitted". -/
def assemble (l : AsmLine) : Option Instr :=
  match l.port, l.op with
  | .sb, .read => some (.sbRead (asmCount l.n) l.addr (l.data.getD 0))
  | .sb, .write => l.data.map (.sbWrite (asmCount l.n) l.addr)
  | .sb, .cfgRead => none
  | .sb, .cfgWrite => none
  | .br, .read => some (.brRead (asmCount l.n) l.addr (l.data.getD 0))
  | .br, .write => l.data.map (.brWrite (asmCount l.n) l.addr)
  | .br, .cfgRead => some (.brCfgRead (asmCount l.n) l.addr (l.data.getD 0))
  | .br, .cfgWrite => l.data.map (.brCfgWrite (asmCount l.n) l.addr)
  | .pb, .read => some (.pbRead (asmCount l.n) l.addr (l.data.getD 0))
  | .pb, .write => l.data.map (.pbWrite (asmCount l.n) l.addr)
  | .pb, .cfgRead => some (.pbCfgRead (asmCount l.n) l.addr (l.data.getD 0))
  | .pb, .cfgWrite => l.data.map (.pbCfgWrite (asmCount l.n) l.addr)

/-- `LD<n> addr` (R93). -/
def pseudoLd (n : Byte) (addr : Word) : Instr := .sbRead n addr 0

/-- `ST<n> addr, v` (R93). -/
def pseudoSt (n : Byte) (addr v : Word) : Instr := .sbWrite n addr v

/-- `CFGRD bus, dev, reg, n` (R93). -/
def pseudoCfgRd (bus : BitVec 4) (dev : BitVec 5) (reg : BitVec 12) (n : Byte) : Instr :=
  .brCfgRead n (cfgAddr bus dev reg) 0

/-- `CFGWR bus, dev, reg, n, v` (R93). -/
def pseudoCfgWr (bus : BitVec 4) (dev : BitVec 5) (reg : BitVec 12) (n : Byte) (v : Word) : Instr :=
  .brCfgWrite n (cfgAddr bus dev reg) v

/-- `BRCFGRD off, n` (R93), for `off < 0x1000`, the values of 12 bits. -/
def pseudoBrCfgRd (off : BitVec 12) (n : Byte) : Instr := .brCfgRead n (0xD0000000 + off.setWidth 64) 0

/-- `BRCFGWR off, n, v` (R93). -/
def pseudoBrCfgWr (off : BitVec 12) (n : Byte) (v : Word) : Instr := .brCfgWrite n (0xD0000000 + off.setWidth 64) v

end Sys2Proof.Machine
end

