-- ==== Sys2Proof/Safety.lean ====
section
/-! DEFINITION. Safety.lean: the terms in which claims are made: when the block accepts a request, the invariant of a
block that bring-up admitted, what no transaction changes, and a run without a fault. -/

namespace Sys2Proof.Machine

/-- The ports accept requests and no model fault is recorded (R204 check 1, R232 a). -/
abbrev Accepts (s : State) : Prop := s.ready = true ∧ s.faulted = none

/-- The byteCount field that spells a byteCount (R80, R85). -/
def countField (c : ByteCount) : Byte := BitVec.ofNat 8 (bytes c)

/-- All attached devices, list by list. -/
def allDevices (s : State) : List Device := s.sb ++ s.br ++ s.pb

/-- The invariant: every device is as R24 and R28 admit it (window, buffer, canonical form), no device is attached
twice (R24), the bridge's buffer is a canonical image of 4096 bytes (R27), and there is an issuer (R212). -/
structure BlockInv (s : State) : Prop where
  devicesOk : ∀ d ∈ allDevices s, deviceOk d = true
  idsNodup  : ((allDevices s).map (·.id)).Nodup
  brCfgOk   : imageOk s.brCfg brCfgSize
  hasIssuer : 1 ≤ s.issuers.length

/-- MMIO or PCI, the kind of a device (R23). -/
inductive Kind where
  | mmio
  | pci
  deriving DecidableEq, Repr

/-- The kind of a device. -/
def kindOf (d : Device) : Kind :=
  match d.config with
  | .mmio => .mmio
  | .pci _ => .pci

/-- A device descriptor: name, window and kind (R23), with the identity of the device. -/
structure Descriptor where
  id     : Nat
  name   : String
  window : Window
  kind   : Kind
  deriving DecidableEq, Repr

/-- What is fixed of a device when it is attached (R25). -/
def descriptorOf (d : Device) : Descriptor := ⟨d.id, d.name, d.window, kindOf d⟩

/-- What no transaction changes (R25, R232 b): the topology, the parameter, and that the ports are open. -/
structure SameTopology (s t : State) : Prop where
  sb    : t.sb.map descriptorOf = s.sb.map descriptorOf
  br    : t.br.map descriptorOf = s.br.map descriptorOf
  pb    : t.pb.map descriptorOf = s.pb.map descriptorOf
  fwd   : t.fwdCfgAtSb = s.fwdCfgAtSb
  ready : t.ready = s.ready

/-- The state that R36 lists, and the pending requests, are the same: only outputs of a transaction differ. -/
structure SameState (s t : State) : Prop where
  sb      : t.sb = s.sb
  br      : t.br = s.br
  pb      : t.pb = s.pb
  brCfg   : t.brCfg = s.brCfg
  fwd     : t.fwdCfgAtSb = s.fwdCfgAtSb
  ready   : t.ready = s.ready
  faulted : t.faulted = s.faulted
  issuers : t.issuers = s.issuers
  calls   : t.deviceCalls = s.deviceCalls
  grants  : t.grants = s.grants

/-- A grant that names an issuer with nothing presented, or the device port with no call pending (log entry 5). -/
def NamesNobody (s : State) : Grant → Prop
  | .issuer k => ∀ q, s.issuers[k]? = some q → q = []
  | .devicePort => s.deviceCalls = []

/-- The step of `s` performs the record `r` on `u`, which is `s` without what the arbiter took: the decoded operation; or
the model fault of an illegal header (R84, R203); or the refusal of a `dop` that is never issued (log entry 17). -/
structure StepPerforms (s : State) (r : PortRecord) (u : State) : Prop where
  runs    : ∀ i, decode r = .ok i → step s = exec i u
  faults  : decode r = .error .badRequest →
    step s = .next { u with faulted := some ⟨.badRequest, ⟨r, none⟩⟩, response := none }
  refuses : ∀ d, decode r = .error (.dopNeverIssued d) → step s = .refused (.dopNeverIssued d)

/-- `first(list, p)` as R10 words it: `d`, at position `i`, satisfies `p` and no earlier element does. -/
structure FirstAt (p : Device → Prop) (l : List Device) (i : Nat) (d : Device) : Prop where
  at_   : l[i]? = some d
  sat   : p d
  first : ∀ j e, j < i → l[j]? = some e → ¬ p e

/-- The device's window contains `a`, both ends included (R54). -/
abbrev Answers (a : Word) (d : Device) : Prop := d.window.start ≤ a ∧ a ≤ d.window.stop

/-- The low 32 bits of an address, as a 64-bit value: what the system bus compares (R57). -/
abbrev low32 (a : Word) : Word := BitVec.ofNat 64 (a.toNat % 2 ^ 32)

/-- What a transaction may change, told by its route or by the device that a call names (R68). -/
inductive Target where
  | nothing
  | bridge
  | data (r : DevRef)
  | config (r : DevRef)
  deriving DecidableEq, Repr

/-- What a PCI data path reaches: the private state of the device that its route selects (R130, R165). -/
def dataTarget (s : State) (b : Bus) (addr : Word) : Target :=
  match dataRoute (devices s b) addr with
  | .empty => .nothing
  | .dev i _ => .data ⟨b, i⟩
  | .miss => .nothing

/-- What the bridge's configuration path reaches: the bridge's buffer, or that of the device that its route selects
(R133). -/
def cfgTarget (s : State) (addr : Word) : Target :=
  match cfgRoute s.br addr with
  | .self _ => .bridge
  | .unknown _ => .nothing
  | .notAttached _ => .nothing
  | .dev i _ => .config ⟨.br, i⟩

/-- What the system bus reaches, by itself or through the bridge (R110, R113). -/
def sbTarget (s : State) (addr : Word) : Target :=
  match sbRoute s.sb addr with
  | .direct i _ => .data ⟨.sb, i⟩
  | .cfgWin => if s.fwdCfgAtSb then cfgTarget s addr else .nothing
  | .pciWin => dataTarget s .br addr
  | .miss => .nothing

/-- What an instruction presented to `s` may change (R68). -/
def target (i : Instr) (s : State) : Target :=
  match i with
  | .sbRead _ addr _ => sbTarget s addr
  | .sbWrite _ addr _ => sbTarget s addr
  | .brRead _ addr _ => dataTarget s .br addr
  | .brWrite _ addr _ => dataTarget s .br addr
  | .brCfgRead _ addr _ => cfgTarget s addr
  | .brCfgWrite _ addr _ => cfgTarget s addr
  | .pbRead _ addr _ => dataTarget s .pb addr
  | .pbWrite _ addr _ => dataTarget s .pb addr
  | .pbCfgRead _ _ _ => .nothing
  | .pbCfgWrite _ _ _ => .nothing
  | .devRead dev _ _ _ => .data dev
  | .devWrite dev _ _ _ => .data dev
  | .devCfgRead dev _ _ _ => .config dev
  | .devCfgWrite dev _ _ _ => .config dev
  | .devIdentify _ => .nothing

/-- A result with `f` applied to its next state. -/
def mapNext (f : State → State) : Result → Result
  | .next t => .next (f t)
  | .fault e => .fault e
  | .refused e => .refused e

/-- The result of a request seen as that of the request `r` which forwarded it (R113): the same, but that a model fault
records `r`. -/
def asRequest (r : PortRecord) : Result → Result :=
  mapNext fun t => { t with faulted := t.faulted.map fun f => { f with info := { f.info with record := r } } }

/-- The ten legal upstream headers (R84). -/
def legalHeaders : List Byte := [0x00, 0x01, 0x04, 0x05, 0x06, 0x07, 0x08, 0x09, 0x0A, 0x0B]

/-- The four upstream operations of port Q (R84). -/
def isPortQ : Instr → Bool
  | .pbRead _ _ _ => true
  | .pbWrite _ _ _ => true
  | .pbCfgRead _ _ _ => true
  | .pbCfgWrite _ _ _ => true
  | _ => false

/-- The five downstream calls (R83). -/
def isDevCall : Instr → Bool
  | .devRead _ _ _ _ => true
  | .devWrite _ _ _ _ => true
  | .devCfgRead _ _ _ _ => true
  | .devCfgWrite _ _ _ _ => true
  | .devIdentify _ => true
  | _ => false

/-- The configuration reads (R68). -/
def isCfgRead : Instr → Bool
  | .brCfgRead _ _ _ => true
  | .pbCfgRead _ _ _ => true
  | .devCfgRead _ _ _ _ => true
  | _ => false

/-- `k` steps were taken from `s` and no model fault was recorded. -/
def RunsClean : Nat → State → Prop
  | 0, s => s.faulted = none
  | k + 1, s => ∃ t, step s = .next t ∧ RunsClean k t

end Sys2Proof.Machine
end

