-- ==== Sys2Proof/Certificates/Slice0/Obligations.lean ====
section
/-! DEFINITION. Certificates/Slice0/Obligations.lean: the statements for the provers. A byteCount is written
`countField c`: the four values of `c` are the four legal values of the field (30_encoding.md R85). How a next state
holds things is the MODEL'S CHOICE throughout: outputs in the fields `response` and `events` (log entry 15), the count
`draws` (log entry 4), buffers as lists in canonical form (log entry 3). -/

open Sys2Proof Sys2Proof.Machine

/-! ### Records and decoding -/

/-- Words written out from R80, R81 and R94 (the encodings of 95_test_vectors.md), one for each legal header, and the
five `dop` codes of R83. -/
def Obligations.WordsOfTheSpecDecode : Prop :=
  decode (.req 0x000400000200EA0013000000000000000000) = .ok (.sbRead 4 0x200EA001300 0) ∧
  decode (.req 0x0104000000001234567800000000DEADBEEF) = .ok (.sbWrite 4 0x12345678 0xDEADBEEF) ∧
  decode (.req 0x040100000200EA001301FFFFFFFFFFFFFF00) = .ok (.brRead 1 0x200EA001301 0xFFFFFFFFFFFFFF00) ∧
  decode (.req 0x050200000200EA002010000000000000BEEF) = .ok (.brWrite 2 0x200EA002010 0xBEEF) ∧
  decode (.req 0x060800000000D0000FFC0000000000000000) = .ok (.brCfgRead 8 0xD0000FFC 0) ∧
  decode (.req 0x070800000000D00000F80102030405060708) = .ok (.brCfgWrite 8 0xD00000F8 0x102030405060708) ∧
  decode (.req 0x080400000000400000040000000000000033) = .ok (.pbRead 4 0x40000004 0x33) ∧
  decode (.req 0x090100000000400000FF000000000000ABCD) = .ok (.pbWrite 1 0x400000FF 0xABCD) ∧
  decode (.req 0x0A0400000000D01380000000000000000077) = .ok (.pbCfgRead 4 0xD0138000 0x77) ∧
  decode (.req 0x0B0400000000D0000000000000000000FFFF) = .ok (.pbCfgWrite 4 0xD0000000 0xFFFF) ∧
  decode (.dev ⟨0b000, ⟨.sb, 0⟩, 0x80000002, 2, 0⟩) = .ok (.devRead ⟨.sb, 0⟩ 2 0x80000002 0) ∧
  decode (.dev ⟨0b001, ⟨.sb, 0⟩, 0x80000000, 4, 0x11223344⟩) = .ok (.devWrite ⟨.sb, 0⟩ 4 0x80000000 0x11223344) ∧
  decode (.dev ⟨0b010, ⟨.br, 2⟩, 0xD01100F8, 8, 0⟩) = .ok (.devCfgRead ⟨.br, 2⟩ 8 0xD01100F8 0) ∧
  decode (.dev ⟨0b011, ⟨.br, 2⟩, 0xD0110000, 4, 0xDEADBEEF⟩) = .ok (.devCfgWrite ⟨.br, 2⟩ 4 0xD0110000 0xDEADBEEF) ∧
  decode (.dev ⟨0b100, ⟨.br, 2⟩, 0, 0, 0⟩) = .ok (.devIdentify ⟨.br, 2⟩)

/-- R84: each legal header spells its operation; every other header, whatever the rest of the record, raises
`BadRequest` and does nothing else; the DEV format has the five legal `dop` values. Decisions of the spec's own in it
(92_eei_decisions.md): D2 and D24. -/
def Obligations.HeadersSpellOperationsOrRaiseBadRequest : Prop :=
  (∀ (n : Byte) (a d : Word),
    decode (mkReq 0x00 n a d) = .ok (.sbRead n a d) ∧ decode (mkReq 0x01 n a d) = .ok (.sbWrite n a d) ∧
    decode (mkReq 0x04 n a d) = .ok (.brRead n a d) ∧ decode (mkReq 0x05 n a d) = .ok (.brWrite n a d) ∧
    decode (mkReq 0x06 n a d) = .ok (.brCfgRead n a d) ∧ decode (mkReq 0x07 n a d) = .ok (.brCfgWrite n a d) ∧
    decode (mkReq 0x08 n a d) = .ok (.pbRead n a d) ∧ decode (mkReq 0x09 n a d) = .ok (.pbWrite n a d) ∧
    decode (mkReq 0x0A n a d) = .ok (.pbCfgRead n a d) ∧ decode (mkReq 0x0B n a d) = .ok (.pbCfgWrite n a d)) ∧
  (∀ (s : State) (h n : Byte) (a d : Word), Accepts s → h ∉ legalHeaders →
    perform (mkReq h n a d) s = .next { s with
      faulted := some ⟨.badRequest, ⟨mkReq h n a d, none⟩⟩
      response := none }) ∧
  (∀ c : DevCall, (∃ i, decode (.dev c) = .ok i) ↔ c.dop.toNat ≤ 4)

/-- Decoding the record that encodes an instruction gives it back, every operand at every value. -/
def Obligations.DecodeOfEncodeIsTheInstruction : Prop :=
  ∀ i : Instr, decode (encode i) = .ok i

/-- "No record decodes to two operations" (R95): a record that decodes is the one encoding of its instruction. A call
of DEV.IDENTIFY is the exception: three of its fields are not used (R170). -/
def Obligations.EncodeOfDecodeIsTheRecord : Prop :=
  (∀ (w : ReqWord) (i : Instr), decode (.req w) = .ok i → encode i = .req w) ∧
  (∀ (c : DevCall) (i : Instr), c.dop ≠ 0b100 → decode (.dev c) = .ok i → encode i = .dev c)

/-- R95: every 144-bit record is exactly one of: a legal operation with its fields, which is then performed;
`BadRequest`; or, under a legal header, `BadByteCount`. Decisions of the spec's own in it (92_eei_decisions.md): D24.
-/
def Obligations.EveryRequestIsOneOperationOrOneFault : Prop :=
  ∀ (s : State) (w : ReqWord), Accepts s →
    match classify (.req w) with
    | .operation i => i.wellFormed = true ∧ encode i = .req w ∧ perform (.req w) s = exec i s
    | .badRequest => reqHdr w ∉ legalHeaders ∧
        perform (.req w) s = .next { s with faulted := some ⟨.badRequest, ⟨.req w, none⟩⟩, response := none }
    | .badByteCount => reqHdr w ∈ legalHeaders ∧ legalCount (reqCount w) = false ∧
        perform (.req w) s = .next { s with faulted := some ⟨.badByteCount, ⟨.req w, none⟩⟩, response := none }
    | .dopNeverIssued _ => False

/-! ### The checks, the model fault and the order of transactions -/

/-- R85: the four legal values of the byteCount field, each for as many bytes; any other raises `BadByteCount` on every
port and every op, whatever the route. Decisions of the spec's own in it (92_eei_decisions.md): D3. -/
def Obligations.IllegalByteCountRaisesBadByteCount : Prop :=
  ([ByteCount.one, .two, .four, .eight].map countField = [1, 2, 4, 8] ∧
    [ByteCount.one, .two, .four, .eight].map bytes = [1, 2, 4, 8]) ∧
  ∀ (s : State) (n : Byte) (a v : Word), Accepts s → n ≠ 1 → n ≠ 2 → n ≠ 4 → n ≠ 8 →
    ∀ i ∈ [Instr.sbRead n a v, .sbWrite n a v, .brRead n a v, .brWrite n a v, .brCfgRead n a v, .brCfgWrite n a v,
        .pbRead n a v, .pbWrite n a v, .pbCfgRead n a v, .pbCfgWrite n a v],
      exec i s = .next { s with faulted := some ⟨.badByteCount, ⟨encode i, none⟩⟩, response := none }

/-- The same for the four downstream calls that have a byteCount. That their byteCount is checked is DEDUCED, log entry 7;
that the fault records the call record is the MODEL'S CHOICE, log entry 23. -/
def Obligations.IllegalByteCountOfDeviceCallRaisesBadByteCount : Prop :=
  ∀ (s : State) (r : DevRef) (n : Byte) (a v : Word), Accepts s → n ≠ 1 → n ≠ 2 → n ≠ 4 → n ≠ 8 →
    ∀ i ∈ [Instr.devRead r n a v, .devWrite r n a v, .devCfgRead r n a v, .devCfgWrite r n a v],
      exec i s = .next { s with faulted := some ⟨.badByteCount, ⟨encode i, none⟩⟩, response := none }

/-- R33: the fault is none at reset; a transaction that raises it records a reason and the information of R203 and
makes no other change (it gives no response); a faulted block performs no further transaction. That the faulting
transaction answers a next state is DEDUCED, log entry 13. For a call at the device port, that a bad byteCount faults is
DEDUCED, log entry 7, and the record in the fault is the call record, MODEL'S CHOICE, log entry 23. Decisions of the
spec's own in it (92_eei_decisions.md): D29. -/
def Obligations.ModelFaultIsStickyAndChangesNothingElse : Prop :=
  State.reset.faulted = none ∧
  (∀ (i : Instr) (s t : State), exec i s = .next t → t.faulted ≠ none →
    s.faulted = none ∧ ∃ rn inf, t = { s with faulted := some ⟨rn, inf⟩, response := none } ∧
      inf.record = encode i ∧
      ((rn = .badByteCount ∧ inf.span = none) ∨ (rn = .cfgBounds ∧ ∃ b off, inf.span = some (b, off)))) ∧
  (∀ (s : State) (r : FaultRecord), s.faulted = some r →
    step s = .fault (.stuck r) ∧ ∀ i, exec i s = .fault (.stuck r))

/-- R232 (a): before bring-up completes no request has a step. That the field `ready` says so, and the stop by name, are
the MODEL'S CHOICE, log entry 14. -/
def Obligations.NoTransactionBeforeBringUp : Prop :=
  ∀ s : State, s.ready = false → s.faulted = none →
    step s = .fault .notBroughtUp ∧ ∀ i, exec i s = .fault .notBroughtUp

/-- One step performs one transaction (R69): the oldest request of the issuer that the next grant names, or the oldest
call at the device port if it names that (MODEL'S CHOICE, log entry 10). With no grant, or one that names nobody with
something presented, it is the first issuer with a request, else the device port (MODEL'S CHOICE, log entry 5). However
it was picked, a record that decodes is run, an illegal header faults and is consumed (DEDUCED, log entry 13), and a call
with `dop` 101 to 111 is refused (DEDUCED, log entry 17). With nothing presented the step changes nothing (MODEL'S
CHOICE, log entry 6). -/
def Obligations.StepPerformsThePickedRequest : Prop :=
  (∀ (s : State) (k : Nat) (gs : List Grant) (w : ReqWord) (q : List ReqWord), Accepts s →
    s.grants = .issuer k :: gs → s.issuers[k]? = some (w :: q) →
    StepPerforms s (.req w) { s with issuers := s.issuers.set k q, grants := gs }) ∧
  (∀ (s : State) (gs : List Grant) (c : DevCall) (cs : List DevCall), Accepts s →
    s.grants = .devicePort :: gs → s.deviceCalls = c :: cs →
    StepPerforms s (.dev c) { s with deviceCalls := cs, grants := gs }) ∧
  (∀ s : State, Accepts s → (∀ g, s.grants.head? = some g → NamesNobody s g) →
    (∀ (k : Nat) (w : ReqWord) (q : List ReqWord) (qs : List (List ReqWord)),
      s.issuers = List.replicate k [] ++ (w :: q) :: qs →
      StepPerforms s (.req w) { s with issuers := List.replicate k [] ++ q :: qs, grants := s.grants.tail }) ∧
    (∀ (c : DevCall) (cs : List DevCall), (∀ q ∈ s.issuers, q = []) → s.deviceCalls = c :: cs →
      StepPerforms s (.dev c) { s with deviceCalls := cs, grants := s.grants.tail })) ∧
  (∀ c : DevCall, 5 ≤ c.dop.toNat → decode (.dev c) = .error (.dopNeverIssued c.dop)) ∧
  (∀ s : State, Accepts s → (∀ q ∈ s.issuers, q = []) → s.deviceCalls = [] → step s = .next s)

/-- R70: a step that performs a request takes the oldest one of one issuer, so that the order of transactions is
consistent with each issuer's issue order, and leaves everything else that is pending in place. MODEL'S CHOICE: that a
step with nothing presented changes nothing (the first case, log entry 6); that a transaction consumes one grant (log
entry 5); and that a device call is presented at the device port, in a queue of its own, of which a step takes the
oldest (the third case, log entry 10). -/
def Obligations.StepKeepsEachIssuersOrder : Prop :=
  ∀ s t : State, step s = .next t →
    ((∀ q ∈ s.issuers, q = []) ∧ s.deviceCalls = [] ∧ t.issuers = s.issuers ∧ t.deviceCalls = [] ∧
      t.grants = s.grants) ∨
    (∃ (k : Nat) (w : ReqWord) (q : List ReqWord), s.issuers[k]? = some (w :: q) ∧ t.issuers = s.issuers.set k q ∧
      t.deviceCalls = s.deviceCalls ∧ t.grants = s.grants.tail) ∨
    (∃ c : DevCall, s.deviceCalls = c :: t.deviceCalls ∧ t.issuers = s.issuers ∧ t.grants = s.grants.tail)

/-! ### Bring-up -/

/-- R231: bring-up admits exactly the configurations of `configurationOk` (which asks more than R24 does: MODEL'S CHOICE,
log entry 3), gives the values of R36 and opens the ports; and the order of constructing the bridge (step 3) and
attaching the devices does not change the end state. `attachDevices` is steps 2 and 4 in one (MODEL'S CHOICE, log
entry 14), so that only two of the three operations of R231 are shown to commute. -/
def Obligations.BringUpGivesTheConfiguredState : Prop :=
  (∀ c : Configuration, configurationOk c = false → bringUp c = none) ∧
  (∀ c : Configuration, configurationOk c = true → ∃ s, bringUp c = some s ∧
    s.sb = c.sb ∧ s.br = c.br ∧ s.pb = c.pb ∧ s.brCfg = c.brCfgInit ∧ s.fwdCfgAtSb = c.fwdCfgAtSb ∧
    s.faulted = none ∧ s.ready = true) ∧
  (∀ (c : Configuration) (s : State),
    attachDevices c (constructBridge c s) = constructBridge c (attachDevices c s) ∧
    attachDevices c (constructBridge c s) = { s with
      sb := c.sb, br := c.br, pb := c.pb, brCfg := c.brCfgInit, fwdCfgAtSb := c.fwdCfgAtSb })

/-- R24: a configuration is admitted when every window has start ≤ end and no device is on two lists, and (R28, R29,
R212) its images have their sizes and there is an issuer. Overlapping windows and equal names are admitted. MODEL'S
CHOICE: that an image is a list in canonical form, within its size, and that these conditions and the issuer are asked
of a configuration, which R24 does not do (log entry 3); the same of the bytes of a MEM fixture (log entries 3 and 11);
and that a device is known by the number it carries, so that "no device on two lists" is that no number occurs twice
(log entry 12). -/
def Obligations.ConfigurationsAdmittedAreTheWellFormedOnes : Prop :=
  ∀ c : Configuration, configurationOk c = true ↔
    (∀ d ∈ c.sb ++ c.br ++ c.pb, d.window.start ≤ d.window.stop ∧
      (∀ m, d.config = .pci m → Memory.wf m ∧ Memory.within m 256) ∧
      (∀ m, d.data = .memFixture m → Memory.wf m ∧ Memory.within m ((d.window.stop - d.window.start).toNat + 1))) ∧
    ((c.sb ++ c.br ++ c.pb).map (·.id)).Nodup ∧
    (Memory.wf c.brCfgInit ∧ Memory.within c.brCfgInit 4096) ∧ 1 ≤ c.nIssuers

/-- The reset state is bring-up with the reference topology (R23, R230): four PCI devices behind the bridge at their
windows, `FWD_CFG_AT_SB` false, no fault. The order of the devices and the zero images are the MODEL'S CHOICE, log
entries 1 and 2. -/
def Obligations.ResetIsBringUpOfTheReferenceTopology : Prop :=
  bringUp Configuration.ref = some State.reset ∧ Accepts State.reset ∧ State.reset.fwdCfgAtSb = false ∧
  State.reset.br.map (fun d => (d.name, d.window.start, d.window.stop)) =
    [("SMC", 0x200EA001000, 0x200EA001100), ("CDROM", 0x200EA001200, 0x200EA001230),
     ("HDD", 0x200EA001300, 0x200EA001330), ("XMA", 0x200EA001800, 0x200EA001C00)] ∧
  State.reset.sb = [] ∧ State.reset.pb = [] ∧
  (∀ k, Memory.read State.reset.brCfg k = 0) ∧ ∀ d ∈ State.reset.br, d.config = .pci []

/-! ### Comparators, decodes and tables -/

/-- R55 and R56: `Select` is the first device, in registration order, whose window contains the address; none if no
window does. -/
def Obligations.SelectIsTheFirstMatch : Prop :=
  ∀ (l : List Device) (a : Word),
    (∀ i d, select l a = some (i, d) ↔
      l[i]? = some d ∧ (d.window.start ≤ a ∧ a ≤ d.window.stop) ∧
        ∀ j e, j < i → l[j]? = some e → ¬ (e.window.start ≤ a ∧ a ≤ e.window.stop)) ∧
    (select l a = none ↔ ∀ d ∈ l, ¬ (d.window.start ≤ a ∧ a ≤ d.window.stop))

/-- R57: the system bus routes an address as its low 32 bits; a device is selected there only for the part of its
window at or below 0xFFFF_FFFF; the two data paths behind it and the bridge's self-window test compare all 64 bits.
Decisions of the spec's own in it (92_eei_decisions.md): D10 and D16. -/
def Obligations.SystemBusComparesThirtyTwoBits : Prop :=
  (∀ (l : List Device) (a b : Word), a.toNat % 2 ^ 32 = b.toNat % 2 ^ 32 → sbRoute l a = sbRoute l b) ∧
  (∀ (l : List Device) (a : Word) (i : Nat) (d : Device), sbRoute l a = .direct i d →
    d.window.start.toNat < 2 ^ 32 ∧ d.window.start.toNat ≤ a.toNat % 2 ^ 32 ∧ a.toNat % 2 ^ 32 ≤ d.window.stop.toNat) ∧
  (∀ (l : List Device) (a : Word) (i : Nat) (d : Device), dataRoute l a = .dev i d →
    d.window.start.toNat ≤ a.toNat ∧ a.toNat ≤ d.window.stop.toNat) ∧
  (∀ (l : List Device) (a : Word) (off : Nat), cfgRoute l a = .self off →
    0xD0000000 ≤ a.toNat ∧ a.toNat ≤ 0xD0000FFF)

/-- R114: an address whose low 32 bits lie in a direct-attached device's window goes to that device if no earlier
device's window contains them; with pairwise disjoint windows, whatever the order. -/
def Obligations.DirectDeviceAnswersItsWindow : Prop :=
  ∀ (s : State) (c : ByteCount) (addr v : Word) (i : Nat) (d : Device), Accepts s → s.sb[i]? = some d →
    d.window.start ≤ low32 addr → low32 addr ≤ d.window.stop →
    ((∀ j e, j < i → s.sb[j]? = some e → ¬ Answers (low32 addr) e) ∨
     (∀ (j k : Nat) (e f : Device), j ≠ k → s.sb[j]? = some e → s.sb[k]? = some f →
       ∀ a : Word, ¬ (Answers a e ∧ Answers a f))) →
    (∃ p x, exec (.sbRead (countField c) addr v) s = .next { s with
      sb := s.sb.set i { d with data := p }, draws := s.draws + 1, response := some (.rsp .hitDevice x) }) ∧
    (∃ p, exec (.sbWrite (countField c) addr v) s = .next { s with
      sb := s.sb.set i { d with data := p }, draws := s.draws + 1, response := some (.rsp .hitDevice v) })

/-- R91: the fields of `CFGADDR` are its arguments; `CFGADDR(0, 0, r)` lies in `BRSELF`, so the bridge answers it from
offset `r` of its own buffer, and no device does. The fields of any address are those of the table of R88: its other
bits have no part in them. -/
def Obligations.CfgAddrFieldsAreItsArguments : Prop :=
  (∀ (b : BitVec 4) (d : BitVec 5) (r : BitVec 12),
    cfgDevice (cfgAddr b d r) = d ∧ cfgBus (cfgAddr b d r) = b ∧ cfgRegister (cfgAddr b d r) = r ∧
      (cfgAddr b d r).toNat = 0xD0000000 + b.toNat * 2 ^ 20 + d.toNat * 2 ^ 15 + r.toNat) ∧
  (∀ (l : List Device) (r : BitVec 12), cfgRoute l (cfgAddr 0 0 r) = .self r.toNat) ∧
  (∀ a : Word, (cfgDevice a).toNat = a.toNat / 2 ^ 15 % 32 ∧ (cfgBus a).toNat = a.toNat / 2 ^ 20 % 16 ∧
    (cfgRegister a).toNat = a.toNat % 4096)

/-- R89: inside `BRSELF` the mask 0xFFFF gives the offset from the base, below 4096. -/
def Obligations.SelfWindowOffsetIsDistanceFromBase : Prop :=
  ∀ a : Word, 0xD0000000 ≤ a → a ≤ 0xD0000FFF →
    brSelfOffset a = a.toNat - 0xD0000000 ∧ brSelfOffset a < 4096

/-- R96: the device-number table, all 32 entries. Decisions of the spec's own in it (92_eei_decisions.md): D11. -/
def Obligations.DeviceNumberTableIsAsListed : Prop :=
  (List.range 32).map (fun k => devNames (BitVec.ofNat 5 k)) =
    [["XMA"], ["CDROM"], ["HDD"], [], ["OHCI0", "EHCI0"], ["OHCI1", "EHCI1"], [], ["FastEthernet"], ["SFC"], ["0x580C"],
     ["SMC"], [], [], [], [], ["0x5841"], [], [], [], [], [], [], [], [], [], [], [], [], [], [], [], []]

/-- R136: the name match takes the first registered device whose name is in the entry, by exact equality, and the
configuration path searches the bridge's list only: the other two lists have no part in it. Decisions of the spec's
own in it (92_eei_decisions.md): D11. -/
def Obligations.NameMatchIsTheFirstNamed : Prop :=
  (∀ (l : List Device) (names : List String),
    (∀ i d, nameMatch l names = some (i, d) ↔
      l[i]? = some d ∧ d.name ∈ names ∧ ∀ j e, j < i → l[j]? = some e → e.name ∉ names) ∧
    (nameMatch l names = none ↔ ∀ d ∈ l, d.name ∉ names)) ∧
  (∀ (s : State) (l l' : List Device) (n : Byte) (a v : Word), ∀ i ∈ [Instr.brCfgRead n a v, .brCfgWrite n a v],
    exec i { s with sb := l, pb := l' } = mapNext (fun t => { t with sb := l, pb := l' }) (exec i s))

/-- R92: a line of the assembler syntax spells the request of its port and operation, with its address, its byteCount
and its data, of which a read that omits it has 0. A line spells none exactly when its port lacks the operation or a
write lacks its data; what it spells is well formed. -/
def Obligations.AssemblyLinesSpellWellFormedRequests : Prop :=
  (∀ (a : Word) (c : ByteCount) (v : Word),
    assemble ⟨.sb, .read, a, c, some v⟩ = some (.sbRead (countField c) a v) ∧
    assemble ⟨.sb, .write, a, c, some v⟩ = some (.sbWrite (countField c) a v) ∧
    assemble ⟨.br, .read, a, c, some v⟩ = some (.brRead (countField c) a v) ∧
    assemble ⟨.br, .write, a, c, some v⟩ = some (.brWrite (countField c) a v) ∧
    assemble ⟨.br, .cfgRead, a, c, some v⟩ = some (.brCfgRead (countField c) a v) ∧
    assemble ⟨.br, .cfgWrite, a, c, some v⟩ = some (.brCfgWrite (countField c) a v) ∧
    assemble ⟨.pb, .read, a, c, some v⟩ = some (.pbRead (countField c) a v) ∧
    assemble ⟨.pb, .write, a, c, some v⟩ = some (.pbWrite (countField c) a v) ∧
    assemble ⟨.pb, .cfgRead, a, c, some v⟩ = some (.pbCfgRead (countField c) a v) ∧
    assemble ⟨.pb, .cfgWrite, a, c, some v⟩ = some (.pbCfgWrite (countField c) a v)) ∧
  (∀ (b : Bus) (a : Word) (c : ByteCount), assemble ⟨b, .read, a, c, none⟩ = assemble ⟨b, .read, a, c, some 0⟩ ∧
    assemble ⟨b, .cfgRead, a, c, none⟩ = assemble ⟨b, .cfgRead, a, c, some 0⟩) ∧
  (∀ l : AsmLine, assemble l = none ↔
    (l.port = .sb ∧ (l.op = .cfgRead ∨ l.op = .cfgWrite)) ∨ ((l.op = .write ∨ l.op = .cfgWrite) ∧ l.data = none)) ∧
  (∀ (l : AsmLine) (i : Instr), assemble l = some i → i.wellFormed = true ∧ isDevCall i = false)

/-- R93: the pseudo-instructions and their expansions. Decisions of the spec's own in it (92_eei_decisions.md): D25.
-/
def Obligations.PseudoInstructionsExpandAsListed : Prop :=
  ∀ (n : Byte) (addr v : Word) (bus : BitVec 4) (dev : BitVec 5) (reg off : BitVec 12),
    pseudoLd n addr = .sbRead n addr 0 ∧ pseudoSt n addr v = .sbWrite n addr v ∧
    pseudoCfgRd bus dev reg n = .brCfgRead n (cfgAddr bus dev reg) 0 ∧
    pseudoCfgWr bus dev reg n v = .brCfgWrite n (cfgAddr bus dev reg) v ∧
    pseudoBrCfgRd off n = .brCfgRead n (BitVec.ofNat 64 (0xD0000000 + off.toNat)) 0 ∧
    pseudoBrCfgWr off n v = .brCfgWrite n (BitVec.ofNat 64 (0xD0000000 + off.toNat)) v

/-- R82 and R200: the code and the source class of each outcome tag, and where the response record holds outcome and
slot. -/
def Obligations.ResponseRecordHoldsOutcomeAndSlot : Prop :=
  (∀ (o : OutcomeTag) (v : Word),
    (rspRecord o v).extractLsb' 64 8 = outcomeCode o ∧ (rspRecord o v).extractLsb' 0 64 = v) ∧
  [OutcomeTag.hitDevice, .hitBridgeCfg, .missSbUnmapped, .missPciUnmapped, .missPciEmpty, .sbCfgWindow,
    .cfgUnknownNumber, .cfgNotAttached, .noopCfg].map outcomeCode =
    [0x00, 0x01, 0x10, 0x11, 0x12, 0x13, 0x20, 0x21, 0x30] ∧
  [OutcomeTag.hitDevice, .hitBridgeCfg, .missSbUnmapped, .missPciUnmapped, .missPciEmpty, .sbCfgWindow,
    .cfgUnknownNumber, .cfgNotAttached, .noopCfg].map outcomeClass =
    [none, none, some .unmappedAddress, some .unmappedAddress, some .unmappedAddress, some .unmappedAddress,
      some .unknownConfigDevice, some .unknownConfigDevice, none]

/-- R65: the byte-swapped view has byte `i` of the swap equal to byte `7 - i` of the value. -/
def Obligations.ByteSwapReversesTheBytes : Prop :=
  ∀ (v : Word) (i : Nat), i < 8 → slotByte (bswap64 v) i = slotByte v (7 - i)

/-! ### Slots and buffers -/

/-- R9: the bytes of a slot, replacing one, and the moves between a slot and a buffer, byte for byte. Decisions of the
spec's own in it (92_eei_decisions.md): D4. -/
def Obligations.SlotAndBufferMoveByteForByte : Prop :=
  (∀ (s : Word) (i : Nat), i < 8 → (slotByte s i).toNat = s.toNat / 2 ^ (8 * i) % 256) ∧
  (∀ (s : Word) (i j : Nat) (b : Byte), j < 8 → slotByte (slotPut s i b) j = if j = i then b else slotByte s j) ∧
  (∀ (s : Word) (buf : Memory) (off n j : Nat), j < 8 →
    slotByte (copyToSlot s buf off n) j = if j < n then Memory.read buf (off + j) else slotByte s j) ∧
  (∀ (s : Word) (buf : Memory) (off n j : Nat), Memory.wf buf → Memory.read (copyFromSlot buf off s n) j =
    if off ≤ j ∧ j < off + n then slotByte s (j - off) else Memory.read buf j)

/-- R8, R9: a buffer read after a write gives the byte written at its offset and every other byte as before. That a
buffer is a list in canonical form and within a size, which the write keeps, is the MODEL'S CHOICE, log entry 3. -/
def Obligations.BufferReadAfterWrite : Prop :=
  ∀ (m : Memory) (k size : Nat) (b : Byte), Memory.wf m → Memory.within m size → k < size →
    Memory.wf (Memory.write m k b) ∧ Memory.within (Memory.write m k b) size ∧
    ∀ j, Memory.read (Memory.write m k b) j = if j = k then b else Memory.read m j

/-- The canonical form of a buffer (MODEL'S CHOICE, log entry 3) is canonical: two buffers in it that read the same at
every offset are the same data. -/
def Obligations.EqualBuffersAreEqualData : Prop :=
  ∀ m m' : Memory, Memory.wf m → Memory.wf m' → (∀ k, Memory.read m k = Memory.read m' k) → m = m'

/-! ### System bus -/

/-- R111: SB.READ, route by route: the first direct-attached device that contains the low 32 bits, with the original
address; else `SBCFG`, answered with 0 or, with `FWD_CFG_AT_SB`, performed as BR.CFGREAD; else `PCIWIN`, performed as
BR.READ; else a miss, which returns 0 and changes nothing but the event stream. Decisions of the spec's own in it
(92_eei_decisions.md): D6, D7 and D8. -/
def Obligations.SbReadFollowsItsRoute : Prop :=
  (∀ (n : Byte) (a v : Word), decode (mkReq 0x00 n a v) = .ok (.sbRead n a v)) ∧
  ∀ (s : State) (c : ByteCount) (addr slotIn : Word), Accepts s →
    (∀ i d, FirstAt (Answers (low32 addr)) s.sb i d →
      exec (.sbRead (countField c) addr slotIn) s = .next { s with
        sb := s.sb.set i { d with data := (dataRead .sb d s.draws c addr slotIn).2 }
        draws := s.draws + 1
        response := some (.rsp .hitDevice (dataRead .sb d s.draws c addr slotIn).1) }) ∧
    ((∀ d ∈ s.sb, ¬ Answers (low32 addr) d) →
      (0xD0000000 ≤ low32 addr → low32 addr ≤ 0xD1000000 →
        (s.fwdCfgAtSb = false → exec (.sbRead (countField c) addr slotIn) s = .next { s with
          events := s.events ++ [.sbCfgWindow .read addr]
          response := some (.rsp .sbCfgWindow 0) }) ∧
        (s.fwdCfgAtSb = true → exec (.sbRead (countField c) addr slotIn) s =
          asRequest (encode (.sbRead (countField c) addr slotIn)) (exec (.brCfgRead (countField c) addr slotIn) s))) ∧
      (0xEA000000 ≤ low32 addr → low32 addr ≤ 0xEA010000 →
        exec (.sbRead (countField c) addr slotIn) s = exec (.brRead (countField c) addr slotIn) s) ∧
      (¬ (0xD0000000 ≤ low32 addr ∧ low32 addr ≤ 0xD1000000) →
        ¬ (0xEA000000 ≤ low32 addr ∧ low32 addr ≤ 0xEA010000) →
        exec (.sbRead (countField c) addr slotIn) s = .next { s with
          events := s.events ++ [.unmapped .sb .read addr none]
          response := some (.rsp .missSbUnmapped 0) }))

/-- R112: SB.WRITE, route by route. A miss and an unforwarded `SBCFG` hit change nothing but the event stream; the
miss event carries the byte-swapped data. Decisions of the spec's own in it (92_eei_decisions.md): D7 and D8. -/
def Obligations.SbWriteFollowsItsRoute : Prop :=
  (∀ (n : Byte) (a v : Word), decode (mkReq 0x01 n a v) = .ok (.sbWrite n a v)) ∧
  ∀ (s : State) (c : ByteCount) (addr data : Word), Accepts s →
    (∀ i d, FirstAt (Answers (low32 addr)) s.sb i d →
      exec (.sbWrite (countField c) addr data) s = .next { s with
        sb := s.sb.set i { d with data := dataWrite .sb d s.draws c addr data }
        draws := s.draws + 1
        response := some (.rsp .hitDevice data) }) ∧
    ((∀ d ∈ s.sb, ¬ Answers (low32 addr) d) →
      (0xD0000000 ≤ low32 addr → low32 addr ≤ 0xD1000000 →
        (s.fwdCfgAtSb = false → exec (.sbWrite (countField c) addr data) s = .next { s with
          events := s.events ++ [.sbCfgWindow .write addr]
          response := some (.rsp .sbCfgWindow data) }) ∧
        (s.fwdCfgAtSb = true → exec (.sbWrite (countField c) addr data) s =
          asRequest (encode (.sbWrite (countField c) addr data)) (exec (.brCfgWrite (countField c) addr data) s))) ∧
      (0xEA000000 ≤ low32 addr → low32 addr ≤ 0xEA010000 →
        exec (.sbWrite (countField c) addr data) s = exec (.brWrite (countField c) addr data) s) ∧
      (¬ (0xD0000000 ≤ low32 addr ∧ low32 addr ≤ 0xD1000000) →
        ¬ (0xEA000000 ≤ low32 addr ∧ low32 addr ≤ 0xEA010000) →
        exec (.sbWrite (countField c) addr data) s = .next { s with
          events := s.events ++ [.unmapped .sb .write addr (some (bswap64 data))]
          response := some (.rsp .missSbUnmapped data) }))

/-! ### Bridge, data path -/

/-- R131: BR.READ: all-ones and an event on an empty list and on a miss; else the first device whose window contains
all 64 bits of the address. Decisions of the spec's own in it (92_eei_decisions.md): D6 and D30. -/
def Obligations.BrReadFollowsItsRoute : Prop :=
  (∀ (n : Byte) (a v : Word), decode (mkReq 0x04 n a v) = .ok (.brRead n a v)) ∧
  ∀ (s : State) (c : ByteCount) (addr slotIn : Word), Accepts s →
    (s.br = [] → exec (.brRead (countField c) addr slotIn) s = .next { s with
      events := s.events ++ [.unmapped .br .read addr none]
      response := some (.rsp .missPciEmpty 0xFFFFFFFFFFFFFFFF) }) ∧
    (∀ i d, FirstAt (Answers addr) s.br i d → exec (.brRead (countField c) addr slotIn) s = .next { s with
      br := s.br.set i { d with data := (dataRead .br d s.draws c addr slotIn).2 }
      draws := s.draws + 1
      response := some (.rsp .hitDevice (dataRead .br d s.draws c addr slotIn).1) }) ∧
    (s.br ≠ [] → (∀ d ∈ s.br, ¬ Answers addr d) → exec (.brRead (countField c) addr slotIn) s = .next { s with
      events := s.events ++ [.unmapped .br .read addr none]
      response := some (.rsp .missPciUnmapped 0xFFFFFFFFFFFFFFFF) })

/-- R132: BR.WRITE: silent on an empty list, logged and dropped on a miss. -/
def Obligations.BrWriteFollowsItsRoute : Prop :=
  (∀ (n : Byte) (a v : Word), decode (mkReq 0x05 n a v) = .ok (.brWrite n a v)) ∧
  ∀ (s : State) (c : ByteCount) (addr data : Word), Accepts s →
    (s.br = [] → exec (.brWrite (countField c) addr data) s = .next { s with
      response := some (.rsp .missPciEmpty data) }) ∧
    (∀ i d, FirstAt (Answers addr) s.br i d → exec (.brWrite (countField c) addr data) s = .next { s with
      br := s.br.set i { d with data := dataWrite .br d s.draws c addr data }
      draws := s.draws + 1
      response := some (.rsp .hitDevice data) }) ∧
    (s.br ≠ [] → (∀ d ∈ s.br, ¬ Answers addr d) → exec (.brWrite (countField c) addr data) s = .next { s with
      events := s.events ++ [.unmapped .br .write addr none]
      response := some (.rsp .missPciUnmapped data) })

/-! ### Bridge, configuration path -/

/-- R134: BR.CFGREAD, route by route: the bridge's own bytes, or the span fault; the slot as sent for a number that is
not in the table; all-ones for a number with no device; else the first device named, whose buffer answers (or whose
span check faults), or which does nothing if it is an MMIO device. Decisions of the spec's own in it
(92_eei_decisions.md): D4, D5, D9, D10, D11 and D12. -/
def Obligations.BrCfgReadFollowsItsRoute : Prop :=
  (∀ (n : Byte) (a v : Word), decode (mkReq 0x06 n a v) = .ok (.brCfgRead n a v)) ∧
  ∀ (s : State) (c : ByteCount) (addr slotIn : Word), Accepts s →
    (0xD0000000 ≤ addr → addr ≤ 0xD0000FFF →
      (addr.toNat - 0xD0000000 + bytes c ≤ 4096 → ∃ v,
        exec (.brCfgRead (countField c) addr slotIn) s = .next { s with response := some (.rsp .hitBridgeCfg v) } ∧
        ∀ i < 8, slotByte v i =
          if i < bytes c then Memory.read s.brCfg (addr.toNat - 0xD0000000 + i) else slotByte slotIn i) ∧
      (addr.toNat - 0xD0000000 + bytes c > 4096 →
        exec (.brCfgRead (countField c) addr slotIn) s = .next { s with
          faulted := some ⟨.cfgBounds, ⟨encode (.brCfgRead (countField c) addr slotIn),
            some (.bridge, addr.toNat - 0xD0000000)⟩⟩
          response := none })) ∧
    (¬ (0xD0000000 ≤ addr ∧ addr ≤ 0xD0000FFF) →
      (devNames (cfgDevice addr) = [] → exec (.brCfgRead (countField c) addr slotIn) s = .next { s with
        events := s.events ++ [.unknownConfigDevice (cfgDevice addr) addr]
        response := some (.rsp .cfgUnknownNumber slotIn) }) ∧
      (devNames (cfgDevice addr) ≠ [] → (∀ d ∈ s.br, d.name ∉ devNames (cfgDevice addr)) →
        exec (.brCfgRead (countField c) addr slotIn) s = .next { s with
          events := s.events ++ [.unknownConfigDevice (cfgDevice addr) addr]
          response := some (.rsp .cfgNotAttached 0xFFFFFFFFFFFFFFFF) }) ∧
      (∀ i d, FirstAt (fun e => e.name ∈ devNames (cfgDevice addr)) s.br i d →
        (∀ m, d.config = .pci m → addr.toNat % 256 + bytes c ≤ 256 → ∃ v,
          exec (.brCfgRead (countField c) addr slotIn) s = .next { s with response := some (.rsp .hitDevice v) } ∧
          ∀ k < 8, slotByte v k =
            if k < bytes c then Memory.read m (addr.toNat % 256 + k) else slotByte slotIn k) ∧
        (∀ m, d.config = .pci m → addr.toNat % 256 + bytes c > 256 →
          exec (.brCfgRead (countField c) addr slotIn) s = .next { s with
            faulted := some ⟨.cfgBounds, ⟨encode (.brCfgRead (countField c) addr slotIn),
              some (.device ⟨.br, i⟩, addr.toNat % 256)⟩⟩
            response := none }) ∧
        (d.config = .mmio → exec (.brCfgRead (countField c) addr slotIn) s = .next { s with
          response := some (.rsp .noopCfg slotIn) })))

/-- R135: BR.CFGWRITE, route by route. It changes the addressed bytes of one buffer and no other byte; a write to an
unknown or unattached number changes nothing. Decisions of the spec's own in it (92_eei_decisions.md): D4, D9, D10 and
D11. -/
def Obligations.BrCfgWriteFollowsItsRoute : Prop :=
  (∀ (n : Byte) (a v : Word), decode (mkReq 0x07 n a v) = .ok (.brCfgWrite n a v)) ∧
  ∀ (s : State) (c : ByteCount) (addr data : Word), Accepts s →
    (0xD0000000 ≤ addr → addr ≤ 0xD0000FFF →
      (Memory.wf s.brCfg → addr.toNat - 0xD0000000 + bytes c ≤ 4096 → ∃ m,
        exec (.brCfgWrite (countField c) addr data) s = .next { s with
          brCfg := m, response := some (.rsp .hitBridgeCfg data) } ∧
        Memory.wf m ∧ ∀ k, Memory.read m k =
          if addr.toNat - 0xD0000000 ≤ k ∧ k < addr.toNat - 0xD0000000 + bytes c
          then slotByte data (k - (addr.toNat - 0xD0000000)) else Memory.read s.brCfg k) ∧
      (addr.toNat - 0xD0000000 + bytes c > 4096 →
        exec (.brCfgWrite (countField c) addr data) s = .next { s with
          faulted := some ⟨.cfgBounds, ⟨encode (.brCfgWrite (countField c) addr data),
            some (.bridge, addr.toNat - 0xD0000000)⟩⟩
          response := none })) ∧
    (¬ (0xD0000000 ≤ addr ∧ addr ≤ 0xD0000FFF) →
      (devNames (cfgDevice addr) = [] → exec (.brCfgWrite (countField c) addr data) s = .next { s with
        events := s.events ++ [.unknownConfigDevice (cfgDevice addr) addr]
        response := some (.rsp .cfgUnknownNumber data) }) ∧
      (devNames (cfgDevice addr) ≠ [] → (∀ d ∈ s.br, d.name ∉ devNames (cfgDevice addr)) →
        exec (.brCfgWrite (countField c) addr data) s = .next { s with
          events := s.events ++ [.unknownConfigDevice (cfgDevice addr) addr]
          response := some (.rsp .cfgNotAttached data) }) ∧
      (∀ i d, FirstAt (fun e => e.name ∈ devNames (cfgDevice addr)) s.br i d →
        (∀ m, d.config = .pci m → Memory.wf m → addr.toNat % 256 + bytes c ≤ 256 → ∃ m',
          exec (.brCfgWrite (countField c) addr data) s = .next { s with
            br := s.br.set i { d with config := .pci m' }, response := some (.rsp .hitDevice data) } ∧
          Memory.wf m' ∧ ∀ k, Memory.read m' k =
            if addr.toNat % 256 ≤ k ∧ k < addr.toNat % 256 + bytes c
            then slotByte data (k - addr.toNat % 256) else Memory.read m k) ∧
        (∀ m, d.config = .pci m → addr.toNat % 256 + bytes c > 256 →
          exec (.brCfgWrite (countField c) addr data) s = .next { s with
            faulted := some ⟨.cfgBounds, ⟨encode (.brCfgWrite (countField c) addr data),
              some (.device ⟨.br, i⟩, addr.toNat % 256)⟩⟩
            response := none }) ∧
        (d.config = .mmio → exec (.brCfgWrite (countField c) addr data) s = .next { s with
          response := some (.rsp .noopCfg data) })))

/-- R134: a read of `BR.cfg` returns "exactly the bytes last written" there, and keeps the slot's other bytes. -/
def Obligations.BridgeConfigWriteThenRead : Prop :=
  ∀ (s : State) (c : ByteCount) (addr data slotIn : Word), Accepts s → Memory.wf s.brCfg →
    0xD0000000 ≤ addr → addr ≤ 0xD0000FFF → addr.toNat - 0xD0000000 + bytes c ≤ 4096 →
    ∃ t u v, exec (.brCfgWrite (countField c) addr data) s = .next t ∧
      exec (.brCfgRead (countField c) addr slotIn) t = .next u ∧ u.response = some (.rsp .hitBridgeCfg v) ∧
      ∀ i < 8, slotByte v i = if i < bytes c then slotByte data i else slotByte slotIn i

/-- The per-device round trip: a configuration read at any address with the same device number and the same low byte
returns the bytes written (R88, R90, R173, R174). -/
def Obligations.DeviceConfigWriteThenReadAtAlias : Prop :=
  ∀ (s : State) (c : ByteCount) (addr addr' data slotIn : Word) (i : Nat) (d : Device) (m : Memory), Accepts s →
    ¬ (0xD0000000 ≤ addr ∧ addr ≤ 0xD0000FFF) → ¬ (0xD0000000 ≤ addr' ∧ addr' ≤ 0xD0000FFF) →
    cfgDevice addr' = cfgDevice addr → addr'.toNat % 256 = addr.toNat % 256 →
    FirstAt (fun e => e.name ∈ devNames (cfgDevice addr)) s.br i d → d.config = .pci m → Memory.wf m →
    addr.toNat % 256 + bytes c ≤ 256 →
    ∃ t u v, exec (.brCfgWrite (countField c) addr data) s = .next t ∧
      exec (.brCfgRead (countField c) addr' slotIn) t = .next u ∧ u.response = some (.rsp .hitDevice v) ∧
      ∀ k < 8, slotByte v k = if k < bytes c then slotByte data k else slotByte slotIn k

/-! ### Standalone PCI bus -/

/-- R160: PB.READ over the list of port Q. Decisions of the spec's own in it (92_eei_decisions.md): D6, D15 and D30.
-/
def Obligations.PbReadFollowsItsRoute : Prop :=
  (∀ (n : Byte) (a v : Word), decode (mkReq 0x08 n a v) = .ok (.pbRead n a v)) ∧
  ∀ (s : State) (c : ByteCount) (addr slotIn : Word), Accepts s →
    (s.pb = [] → exec (.pbRead (countField c) addr slotIn) s = .next { s with
      events := s.events ++ [.unmapped .pb .read addr none]
      response := some (.rsp .missPciEmpty 0xFFFFFFFFFFFFFFFF) }) ∧
    (∀ i d, FirstAt (Answers addr) s.pb i d → exec (.pbRead (countField c) addr slotIn) s = .next { s with
      pb := s.pb.set i { d with data := (dataRead .pb d s.draws c addr slotIn).2 }
      draws := s.draws + 1
      response := some (.rsp .hitDevice (dataRead .pb d s.draws c addr slotIn).1) }) ∧
    (s.pb ≠ [] → (∀ d ∈ s.pb, ¬ Answers addr d) → exec (.pbRead (countField c) addr slotIn) s = .next { s with
      events := s.events ++ [.unmapped .pb .read addr none]
      response := some (.rsp .missPciUnmapped 0xFFFFFFFFFFFFFFFF) })

/-- R161: PB.WRITE over the list of port Q. Decisions of the spec's own in it (92_eei_decisions.md): D15. -/
def Obligations.PbWriteFollowsItsRoute : Prop :=
  (∀ (n : Byte) (a v : Word), decode (mkReq 0x09 n a v) = .ok (.pbWrite n a v)) ∧
  ∀ (s : State) (c : ByteCount) (addr data : Word), Accepts s →
    (s.pb = [] → exec (.pbWrite (countField c) addr data) s = .next { s with
      response := some (.rsp .missPciEmpty data) }) ∧
    (∀ i d, FirstAt (Answers addr) s.pb i d → exec (.pbWrite (countField c) addr data) s = .next { s with
      pb := s.pb.set i { d with data := dataWrite .pb d s.draws c addr data }
      draws := s.draws + 1
      response := some (.rsp .hitDevice data) }) ∧
    (s.pb ≠ [] → (∀ d ∈ s.pb, ¬ Answers addr d) → exec (.pbWrite (countField c) addr data) s = .next { s with
      events := s.events ++ [.unmapped .pb .write addr none]
      response := some (.rsp .missPciUnmapped data) })

/-- R162 and R163: the configuration operations of port Q do no work: the slot comes back as sent and no state is
written. -/
def Obligations.PbConfigurationDoesNothing : Prop :=
  (∀ (n : Byte) (a v : Word), decode (mkReq 0x0A n a v) = .ok (.pbCfgRead n a v) ∧
    decode (mkReq 0x0B n a v) = .ok (.pbCfgWrite n a v)) ∧
  ∀ (s : State) (c : ByteCount) (addr v : Word), Accepts s →
    exec (.pbCfgRead (countField c) addr v) s = .next { s with response := some (.rsp .noopCfg v) } ∧
    exec (.pbCfgWrite (countField c) addr v) s = .next { s with response := some (.rsp .noopCfg v) }

/-! ### Device port -/

/-- R171: DEV.READ, presented at the device port (MODEL'S CHOICE, log entry 10), makes one choice of the device,
`dataRead`: it replaces the device's private state and returns the slot chosen, and touches no configuration buffer, no
other device and no descriptor. For an OPEN device the choice is the free value `Config.dataRead` (log entry 4); for the
MEM fixture see `MemFixtureReadsAndWritesItsBytes`. -/
def Obligations.DevReadIsTheDevicesChoice : Prop :=
  (∀ (r : DevRef) (n : Byte) (a v : Word), decode (.dev ⟨0b000, r, a, n, v⟩) = .ok (.devRead r n a v)) ∧
  (∀ (s : State) (r : DevRef) (d : Device) (c : ByteCount) (addr slotIn : Word), Accepts s → deviceAt? s r = some d →
    exec (.devRead r (countField c) addr slotIn) s = .next { setDevices s r.bus
      ((devices s r.bus).set r.pos { d with data := (dataRead r.bus d s.draws c addr slotIn).2 }) with
      draws := s.draws + 1
      response := some (.devSlot (dataRead r.bus d s.draws c addr slotIn).1) }) ∧
  ∀ (b : Bus) (d : Device) (k q : Nat) (c : ByteCount) (addr slotIn : Word), d.data = .param q →
    dataRead b d k c addr slotIn =
      ((Config.dataRead d.id k q addr c slotIn).1, .param (Config.dataRead d.id k q addr c slotIn).2)

/-- R172: DEV.WRITE, presented at the device port (MODEL'S CHOICE, log entry 10), replaces the device's private state by
its choice, `dataWrite`, and nothing else. For an OPEN device the choice is the free value `Config.dataWrite` (log entry
4) of the low n bytes of the data, the others replaced by 0 (R62); for the MEM fixture see
`MemFixtureReadsAndWritesItsBytes`. -/
def Obligations.DevWriteIsTheDevicesChoice : Prop :=
  (∀ (r : DevRef) (n : Byte) (a v : Word), decode (.dev ⟨0b001, r, a, n, v⟩) = .ok (.devWrite r n a v)) ∧
  (∀ (s : State) (r : DevRef) (d : Device) (c : ByteCount) (addr data : Word), Accepts s → deviceAt? s r = some d →
    exec (.devWrite r (countField c) addr data) s = .next { setDevices s r.bus
      ((devices s r.bus).set r.pos { d with data := dataWrite r.bus d s.draws c addr data }) with
      draws := s.draws + 1
      response := some .devDone }) ∧
  (∀ (b : Bus) (d : Device) (k q : Nat) (c : ByteCount) (addr data : Word), d.data = .param q →
    dataWrite b d k c addr data = .param (Config.dataWrite d.id k q addr c (lowBytes (bytes c) data))) ∧
  ∀ (n j : Nat) (v : Word), j < 8 → slotByte (lowBytes n v) j = if j < n then slotByte v j else 0

/-- The MEM fixture of 95_test_vectors.md section 1.1, one of the two data paths of a device (MODEL'S CHOICE, log entry
11): a read has no side effect and gives the fixture's bytes at offset `(addr - s) mod 2^W`, with W 32 on the system bus
and 64 behind it, 0 past the window; a write stores the slot's bytes there and drops those past the window. The canonical
form of the bytes is the MODEL'S CHOICE, log entry 3. -/
def Obligations.MemFixtureReadsAndWritesItsBytes : Prop :=
  (compareWidth .sb = 32 ∧ compareWidth .br = 64 ∧ compareWidth .pb = 64) ∧
  ∀ (b : Bus) (d : Device) (k : Nat) (c : ByteCount) (addr v : Word) (m : Memory), d.data = .memFixture m →
    (dataRead b d k c addr v).2 = d.data ∧
    (∀ i < 8, slotByte (dataRead b d k c addr v).1 i =
      if i < bytes c then
        (if (addr - d.window.start).toNat % 2 ^ compareWidth b + i ≤ (d.window.stop - d.window.start).toNat
         then Memory.read m ((addr - d.window.start).toNat % 2 ^ compareWidth b + i) else 0)
      else slotByte v i) ∧
    (Memory.wf m → ∃ m', dataWrite b d k c addr v = .memFixture m' ∧ Memory.wf m' ∧ ∀ j, Memory.read m' j =
      if (addr - d.window.start).toNat % 2 ^ compareWidth b ≤ j ∧
         j < (addr - d.window.start).toNat % 2 ^ compareWidth b + bytes c ∧
         j ≤ (d.window.stop - d.window.start).toNat
      then slotByte v (j - (addr - d.window.start).toNat % 2 ^ compareWidth b) else Memory.read m j)

/-- R173: DEV.CFGREAD on a PCI device: the buffer's bytes, or the span fault. MODEL'S CHOICE: that the call is presented
at the device port (log entry 10), and that its fault records the call record (log entry 23). Decisions of the spec's
own in it (92_eei_decisions.md): D4, D5 and D9. -/
def Obligations.DevCfgReadReturnsBufferBytes : Prop :=
  (∀ (r : DevRef) (n : Byte) (a v : Word), decode (.dev ⟨0b010, r, a, n, v⟩) = .ok (.devCfgRead r n a v)) ∧
  ∀ (s : State) (r : DevRef) (d : Device) (m : Memory) (c : ByteCount) (addr slotIn : Word), Accepts s →
    deviceAt? s r = some d → d.config = .pci m →
    (addr.toNat % 256 + bytes c ≤ 256 → ∃ v,
      exec (.devCfgRead r (countField c) addr slotIn) s = .next { s with response := some (.devCfgSlot .hitDevice v) } ∧
      ∀ k < 8, slotByte v k = if k < bytes c then Memory.read m (addr.toNat % 256 + k) else slotByte slotIn k) ∧
    (addr.toNat % 256 + bytes c > 256 →
      exec (.devCfgRead r (countField c) addr slotIn) s = .next { s with
        faulted := some ⟨.cfgBounds, ⟨encode (.devCfgRead r (countField c) addr slotIn),
          some (.device r, addr.toNat % 256)⟩⟩
        response := none })

/-- R174: DEV.CFGWRITE on a PCI device changes the addressed bytes of its buffer and nothing else, its private state
included; or the span fault. MODEL'S CHOICE: that the call is presented at the device port (log entry 10), that its fault
records the call record (log entry 23), and the canonical form of the buffer (log entry 3). Decisions of the spec's own
in it (92_eei_decisions.md): D4 and D9. -/
def Obligations.DevCfgWriteStoresTheLowBytes : Prop :=
  (∀ (r : DevRef) (n : Byte) (a v : Word), decode (.dev ⟨0b011, r, a, n, v⟩) = .ok (.devCfgWrite r n a v)) ∧
  ∀ (s : State) (r : DevRef) (d : Device) (m : Memory) (c : ByteCount) (addr data : Word), Accepts s →
    deviceAt? s r = some d → d.config = .pci m → Memory.wf m →
    (addr.toNat % 256 + bytes c ≤ 256 → ∃ m',
      exec (.devCfgWrite r (countField c) addr data) s = .next { setDevices s r.bus
        ((devices s r.bus).set r.pos { d with config := .pci m' }) with
        response := some (.devCfgDone .hitDevice) } ∧
      Memory.wf m' ∧ ∀ k, Memory.read m' k =
        if addr.toNat % 256 ≤ k ∧ k < addr.toNat % 256 + bytes c
        then slotByte data (k - addr.toNat % 256) else Memory.read m k) ∧
    (addr.toNat % 256 + bytes c > 256 →
      exec (.devCfgWrite r (countField c) addr data) s = .next { s with
        faulted := some ⟨.cfgBounds, ⟨encode (.devCfgWrite r (countField c) addr data),
          some (.device r, addr.toNat % 256)⟩⟩
        response := none })

/-- R175: DEV.CFGREAD and DEV.CFGWRITE on an MMIO device do nothing, at any offset. -/
def Obligations.MmioConfigurationDoesNothing : Prop :=
  ∀ (s : State) (r : DevRef) (d : Device) (c : ByteCount) (addr v : Word), Accepts s →
    deviceAt? s r = some d → d.config = .mmio →
    exec (.devCfgRead r (countField c) addr v) s = .next { s with response := some (.devCfgSlot .noopCfg v) } ∧
    exec (.devCfgWrite r (countField c) addr v) s = .next { s with response := some (.devCfgDone .noopCfg) }

/-- R170: DEV.IDENTIFY returns name, start and end of the device, and changes nothing; after a step of the block the
device still answers the same. -/
def Obligations.DevIdentifyReturnsTheDescriptor : Prop :=
  (∀ (r : DevRef) (n : Byte) (a v : Word), decode (.dev ⟨0b100, r, a, n, v⟩) = .ok (.devIdentify r)) ∧
  (∀ (s : State) (r : DevRef) (d : Device), Accepts s → deviceAt? s r = some d →
    exec (.devIdentify r) s = .next { s with response := some (.identity d.name d.window.start d.window.stop) }) ∧
  (∀ (s t : State) (r : DevRef) (d : Device), deviceAt? s r = some d → step s = .next t → Accepts t →
    exec (.devIdentify r) t = .next { t with response := some (.identity d.name d.window.start d.window.stop) })

/-- R83: a device reference is a list and a position in it. MODEL'S CHOICE, log entry 8: a downstream call whose reference
names no attached device stops. -/
def Obligations.DeviceCallToNoDeviceStops : Prop :=
  (∀ (s : State) (k : Nat), deviceAt? s ⟨.sb, k⟩ = s.sb[k]? ∧ deviceAt? s ⟨.br, k⟩ = s.br[k]? ∧
    deviceAt? s ⟨.pb, k⟩ = s.pb[k]?) ∧
  ∀ (s : State) (r : DevRef) (c : ByteCount) (a v : Word), Accepts s → deviceAt? s r = none →
    ∀ i ∈ [Instr.devRead r (countField c) a v, .devWrite r (countField c) a v, .devCfgRead r (countField c) a v,
        .devCfgWrite r (countField c) a v, .devIdentify r],
      exec i s = .fault (.noSuchDevice r)

/-! ### The whole machine -/

/-- The invariant holds at reset. MODEL'S CHOICE: the canonical forms (log entry 3) and the device numbers (log entry 12)
in the invariant; the topology REF in its order, the zero images and the one issuer of the reset state (log entries 1, 2
and 20), and that it is the state after bring-up (log entry 14). -/
def Obligations.InvariantHoldsAtReset : Prop := BlockInv State.reset

/-- Every state that bring-up gives meets the invariant, whatever the admitted configuration. The canonical forms and the
device numbers in it are the MODEL'S CHOICE, log entries 3 and 12. -/
def Obligations.BringUpEstablishesTheInvariant : Prop :=
  ∀ (c : Configuration) (s : State), bringUp c = some s → BlockInv s

/-- Every step keeps the invariant: windows, buffer sizes and canonical forms (MODEL'S CHOICE, log entry 3), no device
attached twice (by its number: MODEL'S CHOICE, log entry 12), an issuer. -/
def Obligations.StepKeepsTheInvariant : Prop :=
  ∀ s t : State, BlockInv s → step s = .next t → BlockInv t

/-- R25: no transaction changes a device's name, window or kind, the order of a list, or a parameter. Nor does one change
the number of a device or the open ports, which are the MODEL'S CHOICE, log entries 12 and 14; R25 is not cited for
them. -/
def Obligations.NoStepChangesTheTopology : Prop :=
  ∀ s t : State, step s = .next t → SameTopology s t

/-- R56 and R68: a transaction changes at most the device that its route selects, or that a call names (`target`): every
other device is as before. A data access changes at most that device's private state, a configuration access at most its
buffer, and only a configuration access that the route gives to the bridge itself changes the bridge's buffer. -/
def Obligations.TransactionChangesAtMostOneDevice : Prop :=
  ∀ (i : Instr) (s t : State), exec i s = .next t →
    (∀ r, target i s ≠ .data r → target i s ≠ .config r → deviceAt? t r = deviceAt? s r) ∧
    (∀ r d, target i s = .data r → deviceAt? s r = some d → ∃ p, deviceAt? t r = some { d with data := p }) ∧
    (∀ r d, target i s = .config r → deviceAt? s r = some d → ∃ c, deviceAt? t r = some { d with config := c }) ∧
    (target i s ≠ .bridge → t.brCfg = s.brCfg)

/-- R201, R202: a completed miss changed no state, nothing but the response and the event stream; a read returned the
sentinel of its route in the whole slot, whatever the slot and the byteCount were (the slot as sent for a number that is
not in the table), and a write was dropped on every route. That a miss completes is in the statements of the routes.
Decisions of the spec's own in it (92_eei_decisions.md): D6 and D12. -/
def Obligations.MissReturnsItsSentinelAndChangesNoState : Prop :=
  ∀ (i : Instr) (s t : State) (o : OutcomeTag) (v : Word), exec i s = .next t → t.response = some (.rsp o v) →
    outcomeClass o ≠ none →
    (SameState s t ∧ t.draws = s.draws) ∧
    (∀ (n : Byte) (a w : Word), i ∈ [Instr.sbRead n a w, .brRead n a w, .brCfgRead n a w, .pbRead n a w] →
      (o = .missSbUnmapped ∨ o = .sbCfgWindow → v = 0) ∧
      (o = .missPciUnmapped ∨ o = .missPciEmpty ∨ o = .cfgNotAttached → v = 0xFFFFFFFFFFFFFFFF) ∧
      (o = .cfgUnknownNumber → v = w)) ∧
    (∀ (n : Byte) (a w : Word), i ∈ [Instr.sbWrite n a w, .brWrite n a w, .brCfgWrite n a w, .pbWrite n a w] → v = w)

/-- R68: a configuration read changes no state and can be repeated with the same result. -/
def Obligations.ConfigReadChangesNoStateAndRepeats : Prop :=
  ∀ (i : Instr) (s t : State), isCfgRead i = true → exec i s = .next t → t.faulted = none →
    SameState s t ∧ t.draws = s.draws ∧ ∃ u, exec i t = .next u ∧ u.response = t.response

/-- R62: "slot bits `[63:8n]` of a write's `data` never affect state": two writes whose data agree in the low n bytes
leave the same devices and buffers. -/
def Obligations.WritesIgnoreHighDataBytes : Prop :=
  ∀ (s t : State) (r : DevRef) (c : ByteCount) (addr v v' : Word),
    (∀ i < bytes c, slotByte v i = slotByte v' i) →
    ∀ p ∈ [(Instr.sbWrite (countField c) addr v, Instr.sbWrite (countField c) addr v'),
        (.brWrite (countField c) addr v, .brWrite (countField c) addr v'),
        (.brCfgWrite (countField c) addr v, .brCfgWrite (countField c) addr v'),
        (.pbWrite (countField c) addr v, .pbWrite (countField c) addr v'),
        (.pbCfgWrite (countField c) addr v, .pbCfgWrite (countField c) addr v'),
        (.devWrite r (countField c) addr v, .devWrite r (countField c) addr v'),
        (.devCfgWrite r (countField c) addr v, .devCfgWrite r (countField c) addr v')],
      exec p.1 s = .next t →
      ∃ t', exec p.2 s = .next t' ∧ t'.sb = t.sb ∧ t'.br = t.br ∧ t'.pb = t.pb ∧ t'.brCfg = t.brCfg ∧
        (t'.faulted = none ↔ t.faulted = none)

/-- R211: a transaction appends zero or one event, and a hit emits none. -/
def Obligations.TransactionEmitsAtMostOneEvent : Prop :=
  ∀ (i : Instr) (s t : State), exec i s = .next t →
    (t.events = s.events ∨ ∃ e, t.events = s.events ++ [e]) ∧
    ∀ o v, t.response = some (.rsp o v) → outcomeClass o = none → t.events = s.events

/-- R164: no route of the system bus or the bridge leads to the standalone PCI bus: their transactions neither read nor
change its devices. -/
def Obligations.PortsSAndBDoNotSeePortQ : Prop :=
  ∀ (i : Instr) (s : State) (l : List Device), isPortQ i = false → isDevCall i = false →
    exec i { s with pb := l } = mapNext (fun t => { t with pb := l }) (exec i s) ∧
    ∀ t, exec i s = .next t → t.pb = s.pb

/-- R164: port Q in turn sees neither the other lists nor the bridge's buffer. -/
def Obligations.PortQSeesOnlyItsOwnList : Prop :=
  ∀ (i : Instr) (s : State) (l l' : List Device) (m : Memory), isPortQ i = true →
    exec i { s with sb := l, br := l', brCfg := m } =
      mapNext (fun t => { t with sb := l, br := l', brCfg := m }) (exec i s)

/-- R235: every well-formed upstream transaction presented to an accepting block completes, or records a span fault:
it never stops and is never refused. -/
def Obligations.UpstreamTransactionsAlwaysComplete : Prop :=
  ∀ (i : Instr) (s : State), Accepts s → isDevCall i = false → i.wellFormed = true →
    ∃ t, exec i s = .next t ∧
      ((∃ o v, t.response = some (.rsp o v) ∧ t.faulted = none) ∨
       (∃ b off rec, t.response = none ∧ t.faulted = some ⟨.cfgBounds, ⟨rec, some (b, off)⟩⟩))

/-- R237, R22: what an issuer can send and see. No request it can present spells a device call, so that it reads the
topology, a buffer or a device's state through the ten requests only. Of a response an issuer sees the slot, whatever the
outcome tag. And what a transaction does depends neither on an earlier response nor on the event stream, to which it
only appends. MODEL'S CHOICE: the device port, at which calls are presented in a queue that no issuer fills; so that
where no call is pending none comes to be and every response is that of a request, and that an issuer sees nothing of
what a device returns to such a call (log entry 10); and that the response and the events are held in the state (log
entry 15). -/
def Obligations.IssuersSendRequestsAndSeeSlots : Prop :=
  (∀ (w : ReqWord) (i : Instr), decode (.req w) = .ok i → isDevCall i = false) ∧
  (∀ s t : State, s.deviceCalls = [] → step s = .next t → t.deviceCalls = [] ∧
    (t.response = s.response ∨ t.response = none ∨ ∃ o v, t.response = some (.rsp o v))) ∧
  (∀ (o : OutcomeTag) (v : Word), issuerSlot (.rsp o v) = some v) ∧
  (∀ resp : Response, (∀ o v, resp ≠ .rsp o v) → issuerSlot resp = none) ∧
  (∀ (i : Instr) (s : State) (e : List Event) (resp : Option Response),
    exec i { s with events := e ++ s.events, response := resp } =
      mapNext (fun t => { t with events := e ++ t.events }) (exec i s))
end

