-- ==== Sys2Proof/Laws/State.lean ====
section
/-! SUPPORT. Laws/State.lean: each field of the state after each named update. -/

namespace Sys2Proof.Machine

section
variable (s : State) (ev : Event) (rn : FaultReason) (inf : FaultInfo) (r : DevRef) (d : Device) (p : DataPath)
  (b : Bus) (l : List Device)

@[simp] theorem emit_sb : (emit s ev).sb = s.sb := rfl
@[simp] theorem emit_br : (emit s ev).br = s.br := rfl
@[simp] theorem emit_pb : (emit s ev).pb = s.pb := rfl
@[simp] theorem emit_brCfg : (emit s ev).brCfg = s.brCfg := rfl
@[simp] theorem emit_fwd : (emit s ev).fwdCfgAtSb = s.fwdCfgAtSb := rfl
@[simp] theorem emit_ready : (emit s ev).ready = s.ready := rfl
@[simp] theorem emit_faulted : (emit s ev).faulted = s.faulted := rfl
@[simp] theorem emit_issuers : (emit s ev).issuers = s.issuers := rfl
@[simp] theorem emit_deviceCalls : (emit s ev).deviceCalls = s.deviceCalls := rfl
@[simp] theorem emit_grants : (emit s ev).grants = s.grants := rfl
@[simp] theorem emit_response : (emit s ev).response = s.response := rfl
@[simp] theorem emit_events : (emit s ev).events = s.events ++ [ev] := rfl
@[simp] theorem emit_draws : (emit s ev).draws = s.draws := rfl

@[simp] theorem raiseFault_sb : (raiseFault s rn inf).sb = s.sb := rfl
@[simp] theorem raiseFault_br : (raiseFault s rn inf).br = s.br := rfl
@[simp] theorem raiseFault_pb : (raiseFault s rn inf).pb = s.pb := rfl
@[simp] theorem raiseFault_brCfg : (raiseFault s rn inf).brCfg = s.brCfg := rfl
@[simp] theorem raiseFault_fwd : (raiseFault s rn inf).fwdCfgAtSb = s.fwdCfgAtSb := rfl
@[simp] theorem raiseFault_ready : (raiseFault s rn inf).ready = s.ready := rfl
@[simp] theorem raiseFault_faulted : (raiseFault s rn inf).faulted = some ⟨rn, inf⟩ := rfl
@[simp] theorem raiseFault_issuers : (raiseFault s rn inf).issuers = s.issuers := rfl
@[simp] theorem raiseFault_deviceCalls : (raiseFault s rn inf).deviceCalls = s.deviceCalls := rfl
@[simp] theorem raiseFault_grants : (raiseFault s rn inf).grants = s.grants := rfl
@[simp] theorem raiseFault_response : (raiseFault s rn inf).response = none := rfl
@[simp] theorem raiseFault_events : (raiseFault s rn inf).events = s.events := rfl
@[simp] theorem raiseFault_draws : (raiseFault s rn inf).draws = s.draws := rfl

@[simp] theorem setDevices_brCfg : (setDevices s b l).brCfg = s.brCfg := by cases b <;> rfl
@[simp] theorem setDevices_fwd : (setDevices s b l).fwdCfgAtSb = s.fwdCfgAtSb := by cases b <;> rfl
@[simp] theorem setDevices_ready : (setDevices s b l).ready = s.ready := by cases b <;> rfl
@[simp] theorem setDevices_faulted : (setDevices s b l).faulted = s.faulted := by cases b <;> rfl
@[simp] theorem setDevices_issuers : (setDevices s b l).issuers = s.issuers := by cases b <;> rfl
@[simp] theorem setDevices_deviceCalls : (setDevices s b l).deviceCalls = s.deviceCalls := by cases b <;> rfl
@[simp] theorem setDevices_grants : (setDevices s b l).grants = s.grants := by cases b <;> rfl
@[simp] theorem setDevices_response : (setDevices s b l).response = s.response := by cases b <;> rfl
@[simp] theorem setDevices_events : (setDevices s b l).events = s.events := by cases b <;> rfl
@[simp] theorem setDevices_draws : (setDevices s b l).draws = s.draws := by cases b <;> rfl

@[simp] theorem putDevice_brCfg : (putDevice s r d).brCfg = s.brCfg := by simp [putDevice]
@[simp] theorem putDevice_fwd : (putDevice s r d).fwdCfgAtSb = s.fwdCfgAtSb := by simp [putDevice]
@[simp] theorem putDevice_ready : (putDevice s r d).ready = s.ready := by simp [putDevice]
@[simp] theorem putDevice_faulted : (putDevice s r d).faulted = s.faulted := by simp [putDevice]
@[simp] theorem putDevice_issuers : (putDevice s r d).issuers = s.issuers := by simp [putDevice]
@[simp] theorem putDevice_deviceCalls : (putDevice s r d).deviceCalls = s.deviceCalls := by simp [putDevice]
@[simp] theorem putDevice_grants : (putDevice s r d).grants = s.grants := by simp [putDevice]
@[simp] theorem putDevice_response : (putDevice s r d).response = s.response := by simp [putDevice]
@[simp] theorem putDevice_events : (putDevice s r d).events = s.events := by simp [putDevice]
@[simp] theorem putDevice_draws : (putDevice s r d).draws = s.draws := by simp [putDevice]

@[simp] theorem putData_brCfg : (putData s r d p).brCfg = s.brCfg := by simp [putData]
@[simp] theorem putData_fwd : (putData s r d p).fwdCfgAtSb = s.fwdCfgAtSb := by simp [putData]
@[simp] theorem putData_ready : (putData s r d p).ready = s.ready := by simp [putData]
@[simp] theorem putData_faulted : (putData s r d p).faulted = s.faulted := by simp [putData]
@[simp] theorem putData_issuers : (putData s r d p).issuers = s.issuers := by simp [putData]
@[simp] theorem putData_deviceCalls : (putData s r d p).deviceCalls = s.deviceCalls := by simp [putData]
@[simp] theorem putData_grants : (putData s r d p).grants = s.grants := by simp [putData]
@[simp] theorem putData_response : (putData s r d p).response = s.response := by simp [putData]
@[simp] theorem putData_events : (putData s r d p).events = s.events := by simp [putData]
@[simp] theorem putData_draws : (putData s r d p).draws = s.draws + 1 := rfl

@[simp] theorem devices_sb : devices s .sb = s.sb := rfl
@[simp] theorem devices_br : devices s .br = s.br := rfl
@[simp] theorem devices_pb : devices s .pb = s.pb := rfl
@[simp] theorem setDevices_to_sb : setDevices s .sb l = { s with sb := l } := rfl
@[simp] theorem setDevices_to_br : setDevices s .br l = { s with br := l } := rfl
@[simp] theorem setDevices_to_pb : setDevices s .pb l = { s with pb := l } := rfl
@[simp] theorem devices_emit : devices (emit s ev) b = devices s b := by cases b <;> rfl
@[simp] theorem devices_raiseFault : devices (raiseFault s rn inf) b = devices s b := by cases b <;> rfl

@[simp] theorem deviceAt?_emit : deviceAt? (emit s ev) r = deviceAt? s r := by simp [deviceAt?]
@[simp] theorem deviceAt?_raiseFault : deviceAt? (raiseFault s rn inf) r = deviceAt? s r := by simp [deviceAt?]
@[simp] theorem deviceAt?_brCfg (m : Memory) : deviceAt? { s with brCfg := m } r = deviceAt? s r := by
  cases r with | mk b p => cases b <;> rfl
@[simp] theorem deviceAt?_response (x : Option Response) : deviceAt? { s with response := x } r = deviceAt? s r := by
  cases r with | mk b p => cases b <;> rfl

theorem devices_setDevices (b' : Bus) :
    devices (setDevices s b l) b' = if b' = b then l else devices s b' := by
  cases b <;> cases b' <;> rfl

/-- Replacing one device changes the list it stands in at its position, and no other list. -/
theorem devices_putDevice (b' : Bus) :
    devices (putDevice s r d) b' = if b' = r.bus then (devices s r.bus).set r.pos d else devices s b' := by
  simp [putDevice, devices_setDevices]

theorem devices_putData (b' : Bus) :
    devices (putData s r d p) b' =
      if b' = r.bus then (devices s r.bus).set r.pos { d with data := p } else devices s b' := by
  rw [← devices_putDevice]
  cases b' <;> rfl

@[simp] theorem deviceAt?_putData (r' : DevRef) :
    deviceAt? (putData s r d p) r' = deviceAt? (putDevice s r { d with data := p }) r' := by
  simp only [deviceAt?, devices_putData, devices_putDevice]

end

end Sys2Proof.Machine
end

