-- ==== Sys2Proof/Laws/AddressMap.lean ====
section
/-! SUPPORT. Laws/AddressMap.lean: what the first-match mux and the route functions answer, in the words of R10, R54,
R110, R130 and R133. -/

namespace Sys2Proof.Machine

theorem firstWith_some {p : Device → Bool} {l : List Device} {i : Nat} {d : Device} :
    firstWith p l = some (i, d) ↔ FirstAt (fun e => p e = true) l i d := by
  induction l generalizing i with
  | nil => exact ⟨fun h => by simp [firstWith] at h, fun h => by simpa using h.at_⟩
  | cons e l ih =>
    simp only [firstWith]
    by_cases he : p e = true
    · rw [if_pos he]
      constructor
      · intro h
        simp only [Option.some.injEq, Prod.mk.injEq] at h
        obtain ⟨rfl, rfl⟩ := h
        exact ⟨by simp, he, fun j _ hj => absurd hj (by omega)⟩
      · rintro ⟨h1, h2, h3⟩
        cases i with
        | zero => simpa using h1
        | succ i => exact absurd he (h3 0 e (by omega) (by simp))
    · rw [if_neg he]
      constructor
      · intro h
        cases hf : firstWith p l with
        | none => simp [hf] at h
        | some q =>
          obtain ⟨k, e'⟩ := q
          simp only [hf, Option.some.injEq, Prod.mk.injEq] at h
          obtain ⟨rfl, rfl⟩ := h
          obtain ⟨h1, h2, h3⟩ := ih.1 hf
          refine ⟨by simpa using h1, h2, ?_⟩
          intro j x hj hx
          cases j with
          | zero => simp at hx; subst hx; exact he
          | succ j => exact h3 j x (by omega) (by simpa using hx)
      · rintro ⟨h1, h2, h3⟩
        cases i with
        | zero => simp at h1; subst h1; exact absurd h2 he
        | succ i =>
          have : firstWith p l = some (i, d) :=
            ih.2 ⟨by simpa using h1, h2, fun j x hj hx => h3 (j + 1) x (by omega) (by simpa using hx)⟩
          simp [this]

theorem firstWith_none {p : Device → Bool} {l : List Device} : firstWith p l = none ↔ ∀ d ∈ l, p d = false := by
  induction l with
  | nil => simp [firstWith]
  | cons e l ih =>
    simp only [firstWith, List.forall_mem_cons, ← ih]
    by_cases he : p e = true
    · simp [he]
    · cases hf : firstWith p l <;> simp_all

theorem contains_iff {w : Window} {a : Word} : contains w a = true ↔ w.start ≤ a ∧ a ≤ w.stop := by
  simp [contains]

/-- `Select` is the first device whose window contains the address (R55, R56). -/
theorem select_some {l : List Device} {a : Word} {i : Nat} {d : Device} :
    select l a = some (i, d) ↔ FirstAt (Answers a) l i d := by
  simp only [select, firstWith_some]
  constructor <;> rintro ⟨h1, h2, h3⟩
  · exact ⟨h1, contains_iff.1 h2, fun j e hj he hc => h3 j e hj he (contains_iff.2 hc)⟩
  · exact ⟨h1, contains_iff.2 h2, fun j e hj he hc => h3 j e hj he (contains_iff.1 hc)⟩

theorem select_none {l : List Device} {a : Word} : select l a = none ↔ ∀ d ∈ l, ¬ Answers a d := by
  simp only [select, firstWith_none, ← Bool.not_eq_true, contains_iff]

/-- `NameMatch` is the first device whose name is in the entry (R136). -/
theorem nameMatch_some {l : List Device} {names : List String} {i : Nat} {d : Device} :
    nameMatch l names = some (i, d) ↔ FirstAt (fun e => e.name ∈ names) l i d := by
  simp only [nameMatch, firstWith_some, decide_eq_true_eq]

theorem nameMatch_none {l : List Device} {names : List String} :
    nameMatch l names = none ↔ ∀ d ∈ l, d.name ∉ names := by
  simp only [nameMatch, firstWith_none, decide_eq_false_iff_not]

/-- The truncation of the system bus is the low 32 bits (R57, R97). -/
theorem truncate32_eq (a : Word) : truncate32 a = low32 a := by
  apply BitVec.eq_of_toNat_eq
  simp [truncate32, low32, BitVec.extractLsb'_toNat]

/-- A system-bus address reaches the first direct-attached device whose window contains its low 32 bits (R110). -/
theorem sbRoute_direct {l : List Device} {a : Word} {i : Nat} {d : Device} (h : FirstAt (Answers (low32 a)) l i d) :
    sbRoute l a = .direct i d := by
  rw [sbRoute, truncate32_eq, select_some.2 h]

theorem sbRoute_cfgWin {l : List Device} {a : Word} (h : ∀ d ∈ l, ¬ Answers (low32 a) d)
    (hw : 0xD0000000 ≤ low32 a ∧ low32 a ≤ 0xD1000000) : sbRoute l a = .cfgWin := by
  rw [sbRoute, truncate32_eq, select_none.2 h]
  have : contains sbCfgWin (low32 a) = true := contains_iff.2 hw
  simp [this]

theorem sbRoute_pciWin {l : List Device} {a : Word} (h : ∀ d ∈ l, ¬ Answers (low32 a) d)
    (hw : 0xEA000000 ≤ low32 a ∧ low32 a ≤ 0xEA010000) : sbRoute l a = .pciWin := by
  rw [sbRoute, truncate32_eq, select_none.2 h]
  have h1 : ¬ contains sbCfgWin (low32 a) = true := by
    rw [contains_iff]; rintro ⟨_, h2⟩
    have := BitVec.le_trans hw.1 h2
    exact absurd this (by decide)
  have h2 : contains Machine.pciWin (low32 a) = true := contains_iff.2 hw
  simp [h1, h2]

theorem sbRoute_miss {l : List Device} {a : Word} (h : ∀ d ∈ l, ¬ Answers (low32 a) d)
    (h1 : ¬ (0xD0000000 ≤ low32 a ∧ low32 a ≤ 0xD1000000))
    (h2 : ¬ (0xEA000000 ≤ low32 a ∧ low32 a ≤ 0xEA010000)) : sbRoute l a = .miss := by
  rw [sbRoute, truncate32_eq, select_none.2 h]
  have h1 : ¬ contains sbCfgWin (low32 a) = true := by rw [contains_iff]; exact h1
  have h2 : ¬ contains Machine.pciWin (low32 a) = true := by rw [contains_iff]; exact h2
  simp [h1, h2]

@[simp] theorem dataRoute_nil (a : Word) : dataRoute [] a = .empty := rfl

theorem dataRoute_dev {l : List Device} {a : Word} {i : Nat} {d : Device} (h : FirstAt (Answers a) l i d) :
    dataRoute l a = .dev i d := by
  cases l with
  | nil => simpa using h.at_
  | cons e l => simp only [dataRoute, select_some.2 h]

theorem dataRoute_miss {l : List Device} {a : Word} (hl : l ≠ []) (h : ∀ d ∈ l, ¬ Answers a d) :
    dataRoute l a = .miss := by
  cases l with
  | nil => exact absurd rfl hl
  | cons e l => simp only [dataRoute, select_none.2 h]

/-- A route to a device names a device of the list. -/
theorem sbRoute_at {l : List Device} {a : Word} {i : Nat} {d : Device} (h : sbRoute l a = .direct i d) :
    l[i]? = some d := by
  simp only [sbRoute] at h
  split at h
  · rename_i j e hs
    simp only [SbRoute.direct.injEq] at h
    obtain ⟨rfl, rfl⟩ := h
    exact (select_some.1 hs).at_
  · split at h <;> [skip; split at h] <;> cases h

theorem dataRoute_at {l : List Device} {a : Word} {i : Nat} {d : Device} (h : dataRoute l a = .dev i d) :
    l[i]? = some d := by
  cases l with
  | nil => simp [dataRoute] at h
  | cons e l =>
    simp only [dataRoute] at h
    split at h
    · rename_i j e' hs
      simp only [DataRoute.dev.injEq] at h
      obtain ⟨rfl, rfl⟩ := h
      exact (select_some.1 hs).at_
    · cases h

/-- Inside `BRSELF` the mask gives the offset from the base (R89). -/
theorem brSelfOffset_eq {a : Word} (h : 0xD0000000 ≤ a ∧ a ≤ 0xD0000FFF) :
    brSelfOffset a = a.toNat - 0xD0000000 ∧ brSelfOffset a < 4096 := by
  have h1 : (0xD0000000 : Word).toNat ≤ a.toNat := h.1
  have h2 : a.toNat ≤ (0xD0000FFF : Word).toNat := h.2
  have e1 : (0xD0000000 : Word).toNat = 0xD0000000 := rfl
  have e2 : (0xD0000FFF : Word).toNat = 0xD0000FFF := rfl
  have e : brSelfOffset a = a.toNat % 2 ^ 16 := by
    simp only [brSelfOffset, BitVec.toNat_and]
    exact Nat.and_two_pow_sub_one_eq_mod a.toNat 16
  rw [e]; omega

/-- The low byte of a configuration address (R90). -/
theorem devCfgOffset_eq (a : Word) : devCfgOffset a = a.toNat % 256 := by
  simp [devCfgOffset, BitVec.extractLsb'_toNat]

/-- The fields of `CFGADDR` do not overlap, so the word is their sum (R91). -/
theorem cfgAddr_toNat (b : BitVec 4) (d : BitVec 5) (r : BitVec 12) :
    (cfgAddr b d r).toNat = 0xD0000000 + b.toNat * 2 ^ 20 + d.toNat * 2 ^ 15 + r.toNat := by
  have hb := b.isLt
  have hd := d.isLt
  have hr := r.isLt
  have e : (cfgAddr b d r).toNat = ((2 ^ 24 * 0xD0 ||| b.toNat * 2 ^ 20) ||| d.toNat * 2 ^ 15) ||| r.toNat := by
    simp only [cfgAddr, BitVec.toNat_or, BitVec.toNat_shiftLeft, BitVec.toNat_setWidth, Nat.shiftLeft_eq]
    congr 1
    · congr 1
      · congr 1; omega
      · omega
    · omega
  rw [e, ← Nat.two_pow_add_eq_or_of_lt (by omega : b.toNat * 2 ^ 20 < 2 ^ 24),
    show 2 ^ 24 * 0xD0 + b.toNat * 2 ^ 20 = 2 ^ 20 * (2 ^ 4 * 0xD0 + b.toNat) by omega,
    ← Nat.two_pow_add_eq_or_of_lt (by omega : d.toNat * 2 ^ 15 < 2 ^ 20),
    show 2 ^ 20 * (2 ^ 4 * 0xD0 + b.toNat) + d.toNat * 2 ^ 15 =
      2 ^ 15 * (2 ^ 5 * (2 ^ 4 * 0xD0 + b.toNat) + d.toNat) by omega,
    ← Nat.two_pow_add_eq_or_of_lt (by omega : r.toNat < 2 ^ 15)]
  omega

theorem cfgRoute_self {l : List Device} {a : Word} (h : 0xD0000000 ≤ a ∧ a ≤ 0xD0000FFF) :
    cfgRoute l a = .self (a.toNat - 0xD0000000) := by
  have : contains brSelfWin a = true := contains_iff.2 h
  rw [cfgRoute, this, if_pos rfl, (brSelfOffset_eq h).1]

theorem not_self {a : Word} (h : ¬ (0xD0000000 ≤ a ∧ a ≤ 0xD0000FFF)) : contains brSelfWin a = false := by
  rw [← Bool.not_eq_true, contains_iff]; exact h

theorem cfgRoute_unknown {l : List Device} {a : Word} (h : ¬ (0xD0000000 ≤ a ∧ a ≤ 0xD0000FFF))
    (hn : devNames (cfgDevice a) = []) : cfgRoute l a = .unknown (cfgDevice a) := by
  simp [cfgRoute, not_self h, hn]

theorem cfgRoute_notAttached {l : List Device} {a : Word} (h : ¬ (0xD0000000 ≤ a ∧ a ≤ 0xD0000FFF))
    (hn : devNames (cfgDevice a) ≠ []) (hd : ∀ d ∈ l, d.name ∉ devNames (cfgDevice a)) :
    cfgRoute l a = .notAttached (cfgDevice a) := by
  rw [cfgRoute, not_self h, if_neg (by simp)]
  split
  · exact absurd ‹_› hn
  · rename_i n ns hns
    rw [hns] at hd
    rw [nameMatch_none.2 hd]

theorem cfgRoute_dev {l : List Device} {a : Word} {i : Nat} {d : Device}
    (h : ¬ (0xD0000000 ≤ a ∧ a ≤ 0xD0000FFF)) (hd : FirstAt (fun e => e.name ∈ devNames (cfgDevice a)) l i d) :
    cfgRoute l a = .dev i d := by
  rw [cfgRoute, not_self h, if_neg (by simp)]
  split
  · rename_i hns
    have := hd.sat
    simp [hns] at this
  · rename_i n ns hns
    rw [hns] at hd
    rw [nameMatch_some.2 hd]

/-- What a configuration route can be: the bridge's own buffer within its size, no device, or a device of the list. -/
theorem cfgRoute_at {l : List Device} {a : Word} {i : Nat} {d : Device} (h : cfgRoute l a = .dev i d) :
    l[i]? = some d := by
  simp only [cfgRoute] at h
  split at h
  · cases h
  · split at h
    · cases h
    · split at h
      · rename_i n ns hns j e hs
        simp only [CfgRoute.dev.injEq] at h
        obtain ⟨rfl, rfl⟩ := h
        exact (nameMatch_some.1 hs).at_
      · cases h

end Sys2Proof.Machine
end

