-- ==== Sys2Proof/Laws/Memory.lean ====
section
/-! SUPPORT. Laws/Memory.lean: buffers: read after write, canonical form and size, and the byte moves of
00_scope.md R9. -/

namespace Sys2Proof.Machine

theorem Memory.wf_nil : Memory.wf [] := by simp [Memory.wf]

theorem Memory.wf_cons {c : Host.Cell} {m : Memory} :
    Memory.wf (c :: m) ↔ (∀ x ∈ m, c.1 < x.1) ∧ c.2 ≠ unlistedByte ∧ Memory.wf m := by
  simp only [Memory.wf, List.pairwise_cons, List.forall_mem_cons]
  tauto

/-- An offset below every listed one reads as an unlisted byte. -/
theorem Memory.read_of_lt {m : Memory} {k : Nat} (h : ∀ x ∈ m, k < x.1) : Memory.read m k = unlistedByte := by
  induction m with
  | nil => rfl
  | cons c m ih =>
    have hc : c.1 ≠ k := by have := h c (by simp); omega
    simp [Memory.read, hc, ih fun x hx => h x (by simp [hx])]

/-- The offsets a write leaves listed: those listed before, and the one written. -/
theorem Memory.mem_write {m : Memory} {k : Nat} {b : Byte} {x : Host.Cell} (h : x ∈ Memory.write m k b) :
    x ∈ m ∨ x = (k, b) := by
  induction m with
  | nil => simp only [Memory.write] at h; split at h <;> simp_all
  | cons c m ih =>
    simp only [Memory.write] at h
    split at h <;> [skip; split at h] <;> try split at h
    all_goals simp only [List.mem_cons] at h ⊢; tauto

/-- A write keeps the canonical form. -/
theorem Memory.wf_write {m : Memory} (hm : Memory.wf m) (k : Nat) (b : Byte) : Memory.wf (Memory.write m k b) := by
  induction m with
  | nil =>
    simp only [Memory.write]
    split
    · exact hm
    · rename_i hb; exact Memory.wf_cons.2 ⟨by simp, hb, hm⟩
  | cons c m ih =>
    obtain ⟨hlt, hc, hm'⟩ := Memory.wf_cons.1 hm
    simp only [Memory.write]
    split
    · rename_i hk
      split
      · exact hm
      · rename_i hb
        refine Memory.wf_cons.2 ⟨?_, hb, hm⟩
        intro x hx
        rcases List.mem_cons.1 hx with rfl | hx
        · exact hk
        · have := hlt x hx; simp only; omega
    · split
      · rename_i hk
        split
        · exact hm'
        · rename_i hb
          refine Memory.wf_cons.2 ⟨fun x hx => ?_, hb, hm'⟩
          have := hlt x hx; simp only; omega
      · rename_i hk hk'
        refine Memory.wf_cons.2 ⟨fun x hx => ?_, hc, ih hm'⟩
        rcases Memory.mem_write hx with hx | rfl
        · exact hlt x hx
        · simp only; omega

/-- A write below `size` keeps a buffer within `size`. -/
theorem Memory.within_write {m : Memory} {size k : Nat} (hm : Memory.within m size) (hk : k < size) (b : Byte) :
    Memory.within (Memory.write m k b) size := by
  intro x hx
  rcases Memory.mem_write hx with hx | rfl
  · exact hm x hx
  · exact hk

/-- Read after write (R61): the byte written at its offset, every other byte as before. -/
theorem Memory.read_write {m : Memory} (hm : Memory.wf m) (k : Nat) (b : Byte) (j : Nat) :
    Memory.read (Memory.write m k b) j = if j = k then b else Memory.read m j := by
  induction m with
  | nil =>
    by_cases hb : b = unlistedByte <;> by_cases hj : j = k
    · simp [Memory.write, Memory.read, hb]
    · simp [Memory.write, Memory.read, hb]
    · simp [Memory.write, Memory.read, hb, hj]
    · simp [Memory.write, Memory.read, hb, hj, Ne.symm hj]
  | cons c m ih =>
    obtain ⟨hlt, hc, hm'⟩ := Memory.wf_cons.1 hm
    have hall : ∀ x ∈ m, c.1 < x.1 := hlt
    simp only [Memory.write]
    split
    · rename_i hk
      have hkr : Memory.read (c :: m) k = unlistedByte := by
        apply Memory.read_of_lt
        intro x hx
        rcases List.mem_cons.1 hx with rfl | hx
        · exact hk
        · have := hall x hx; omega
      split
      · rename_i hb
        split
        · rename_i hj; rw [hj, hkr, hb]
        · rfl
      · by_cases hj : j = k
        · simp [Memory.read, hj]
        · simp [Memory.read, hj, Ne.symm hj]
    · split
      · rename_i hk
        have hkr : Memory.read m k = unlistedByte := Memory.read_of_lt (by rw [hk]; exact hall)
        split
        · rename_i hb
          by_cases hj : j = k
          · simp [hj, hkr, hb]
          · have : c.1 ≠ j := by omega
            simp [Memory.read, hj, this]
        · by_cases hj : j = k
          · simp [Memory.read, hj]
          · have : c.1 ≠ j := by omega
            simp [Memory.read, hj, Ne.symm hj, this]
      · rename_i hk hk'
        by_cases hcj : c.1 = j
        · have : j ≠ k := by omega
          simp [Memory.read, hcj, this]
        · simp [Memory.read, hcj, ih hm']

/-- `CopyFromSlot` keeps the canonical form. -/
theorem copyFromSlot_wf {m : Memory} (hm : Memory.wf m) (off : Nat) (s : Word) (n : Nat) :
    Memory.wf (copyFromSlot m off s n) := by
  induction n with
  | zero => exact hm
  | succ n ih => exact Memory.wf_write ih _ _

/-- `CopyFromSlot` stays within a buffer that its span fits (R67). -/
theorem copyFromSlot_within {m : Memory} {size off n : Nat} (hm : Memory.within m size) (hs : off + n ≤ size)
    (s : Word) : Memory.within (copyFromSlot m off s n) size := by
  induction n with
  | zero => exact hm
  | succ n ih => exact Memory.within_write (ih (by omega)) (by omega) _

/-- `CopyFromSlot` writes slot byte `i` at offset `off + i` for `i < n`, and nothing else (R9, R61). -/
theorem copyFromSlot_read {m : Memory} (hm : Memory.wf m) (off : Nat) (s : Word) (n j : Nat) :
    Memory.read (copyFromSlot m off s n) j =
      if off ≤ j ∧ j < off + n then slotByte s (j - off) else Memory.read m j := by
  induction n with
  | zero => simp [copyFromSlot]
  | succ n ih =>
    rw [copyFromSlot, Memory.read_write (copyFromSlot_wf hm off s n), ih]
    by_cases hj : j = off + n
    · subst hj; simp
    · simp only [hj, if_false]
      congr 1
      simp only [eq_iff_iff]
      omega

/-- The MEM fixture's write stays in its window and keeps the canonical form. -/
theorem memFixtureWrite_ok {w : Window} {m : Memory} (hm : imageOk m (memLast w + 1)) (k : Nat) (data : Word) (n : Nat) :
    imageOk (memFixtureWrite w m k data n) (memLast w + 1) := by
  induction n with
  | zero => exact hm
  | succ n ih =>
    simp only [memFixtureWrite]
    split
    · exact ⟨Memory.wf_write ih.1 _ _, Memory.within_write ih.2 (by omega) _⟩
    · exact ih

/-- The MEM fixture's write: slot byte `i` at offset `k + i`, for the offsets inside the window, and nothing else. -/
theorem memFixtureWrite_read {w : Window} {m : Memory} (hm : Memory.wf m) (k : Nat) (v : Word) (n j : Nat) :
    Memory.wf (memFixtureWrite w m k v n) ∧ Memory.read (memFixtureWrite w m k v n) j =
      if k ≤ j ∧ j < k + n ∧ j ≤ memLast w then slotByte v (j - k) else Memory.read m j := by
  induction n with
  | zero => exact ⟨hm, by rw [if_neg (by omega)]; rfl⟩
  | succ n ih =>
    rw [memFixtureWrite]
    split
    · refine ⟨Memory.wf_write ih.1 _ _, ?_⟩
      rw [Memory.read_write ih.1, ih.2]
      by_cases hj : j = k + n
      · rw [if_pos hj, if_pos (by omega), hj, Nat.add_sub_cancel_left]
      · simp only [hj, if_false]
        congr 1
        simp only [eq_iff_iff]
        omega
    · refine ⟨ih.1, ?_⟩
      rw [ih.2]
      congr 1
      simp only [eq_iff_iff]
      omega

end Sys2Proof.Machine
end

