-- ==== Sys2Proof/Laws/Operands.lean ====
section
/-! SUPPORT. Laws/Operands.lean: byteCounts, slot bytes, and the moves into a slot (00_scope.md R9, 20_memory.md R61 to
R65). -/

namespace Sys2Proof.Machine

theorem bytes_pos (c : ByteCount) : 0 < bytes c := by cases c <;> decide
theorem bytes_le (c : ByteCount) : bytes c ≤ 8 := by cases c <;> decide

@[simp] theorem byteCount?_countField (c : ByteCount) : byteCount? (countField c) = some c := by cases c <;> decide
@[simp] theorem legalCount_countField (c : ByteCount) : legalCount (countField c) = true := by cases c <;> decide

/-- The decoder's check of the byteCount and the machine's are one. -/
theorem byteCount?_isSome (n : Byte) : (byteCount? n).isSome = legalCount n := by revert n; decide

theorem byteCount?_eq_none {n : Byte} (h : legalCount n = false) : byteCount? n = none := by
  rw [← byteCount?_isSome] at h; simpa using h

/-- A legal byteCount field spells a byteCount. -/
theorem exists_countField {n : Byte} (h : legalCount n = true) : ∃ c, n = countField c := by
  have key : ∀ n : Byte, legalCount n = true →
      n = countField .one ∨ n = countField .two ∨ n = countField .four ∨ n = countField .eight := by decide
  rcases key n h with h | h | h | h <;> exact ⟨_, h⟩

theorem slotByte_getLsbD (s : Word) (i j : Nat) : (slotByte s i).getLsbD j = (decide (j < 8) && s.getLsbD (8 * i + j)) := by
  simp [slotByte]

/-- Two slots with equal bytes are equal. -/
theorem slot_ext {s t : Word} (h : ∀ i, i < 8 → slotByte s i = slotByte t i) : s = t := by
  apply BitVec.eq_of_getLsbD_eq
  intro k hk
  have := congrArg (fun b => b.getLsbD (k % 8)) (h (k / 8) (by omega))
  have e : 8 * (k / 8) + k % 8 = k := by omega
  simpa only [slotByte_getLsbD, e, Nat.mod_lt k (show 8 > 0 by omega), decide_true, Bool.true_and] using this

theorem ff_getLsbD (m : Nat) : (255 : Word).getLsbD m = decide (m < 8) := by
  by_cases hm : m < 64
  · have : ∀ m < 64, (255 : Word).getLsbD m = decide (m < 8) := by decide
    exact this m hm
  · rw [BitVec.getLsbD_of_ge _ _ (by omega)]
    simp; omega

/-- `SlotPut` replaces bits `[8i+7:8i]` (R9). -/
theorem getLsbD_slotPut (s : Word) (i : Nat) (b : Byte) {m : Nat} (hm : m < 64) :
    (slotPut s i b).getLsbD m = if 8 * i ≤ m ∧ m < 8 * i + 8 then b.getLsbD (m - 8 * i) else s.getLsbD m := by
  have h1 : ((0xFF : Word) <<< (8 * i)).getLsbD m = (decide (8 * i ≤ m) && decide (m < 8 * i + 8)) := by
    rw [BitVec.getLsbD_shiftLeft, ff_getLsbD]
    by_cases h : 8 * i ≤ m
    · have : (m - 8 * i < 8) ↔ (m < 8 * i + 8) := by omega
      simp [hm, h, this]
    · simp [hm, h]
  have h2 : ((b.setWidth 64) <<< (8 * i)).getLsbD m = (decide (8 * i ≤ m) && b.getLsbD (m - 8 * i)) := by
    rw [BitVec.getLsbD_shiftLeft, BitVec.getLsbD_setWidth]
    by_cases h : 8 * i ≤ m
    · have : m - 8 * i < 64 := by omega
      simp [hm, h, this]
    · simp [hm, h]
  rw [slotPut, BitVec.getLsbD_or, BitVec.getLsbD_and, BitVec.getLsbD_not, h1, h2]
  by_cases h : 8 * i ≤ m
  · by_cases h' : m < 8 * i + 8
    · simp [h, h']
    · have : b.getLsbD (m - 8 * i) = false := BitVec.getLsbD_of_ge _ _ (by omega)
      simp [hm, h, h', this]
  · simp [hm, h]

/-- `SlotPut` replaces one byte (R9). -/
theorem slotByte_slotPut (s : Word) (i : Nat) (b : Byte) {j : Nat} (hj : j < 8) :
    slotByte (slotPut s i b) j = if j = i then b else slotByte s j := by
  apply BitVec.eq_of_getLsbD_eq
  intro k hk
  rw [slotByte_getLsbD, getLsbD_slotPut _ _ _ (by omega)]
  by_cases hji : j = i
  · subst hji
    have : 8 * j + k < 8 * j + 8 := by omega
    simp [hk]
  · have : ¬(8 * i ≤ 8 * j + k ∧ 8 * j + k < 8 * i + 8) := by omega
    simp only [this, hji, if_false, slotByte_getLsbD]

/-- What `fillSlot` makes of a slot: the first `n` bytes from `f`, the others kept (R9, R63). -/
theorem slotByte_fillSlot (f : Nat → Byte) (n : Nat) (s : Word) {j : Nat} (hj : j < 8) :
    slotByte (fillSlot f n s) j = if j < n then f j else slotByte s j := by
  induction n with
  | zero => simp [fillSlot]
  | succ n ih =>
    rw [fillSlot, slotByte_slotPut _ _ _ hj, ih]
    by_cases h : j = n
    · subst h; simp
    · have : (j < n + 1) ↔ (j < n) := by omega
      simp [h, this]

/-- `CopyToSlot`: slot byte `i` is buffer byte `off + i` for `i < n`, bytes `n` to 7 are kept (R61, R63). -/
theorem slotByte_copyToSlot (s : Word) (buf : Memory) (off n : Nat) {j : Nat} (hj : j < 8) :
    slotByte (copyToSlot s buf off n) j = if j < n then Memory.read buf (off + j) else slotByte s j :=
  slotByte_fillSlot _ _ _ hj

theorem slotByte_zero {j : Nat} : slotByte 0 j = 0 := by
  apply BitVec.eq_of_getLsbD_eq; intro k hk; simp [slotByte_getLsbD]

theorem slotByte_lowBytes (n : Nat) (s : Word) {j : Nat} (hj : j < 8) :
    slotByte (lowBytes n s) j = if j < n then slotByte s j else 0 := by
  rw [lowBytes, slotByte_fillSlot _ _ _ hj, slotByte_zero]

/-- The low bytes depend only on the low bytes (R62). -/
theorem lowBytes_congr {n : Nat} {s t : Word} (h : ∀ i, i < n → slotByte s i = slotByte t i) :
    lowBytes n s = lowBytes n t := by
  apply slot_ext
  intro i hi
  rw [slotByte_lowBytes _ _ hi, slotByte_lowBytes _ _ hi]
  split
  · exact h i ‹_›
  · rfl

/-- `CopyFromSlot` depends only on the low `n` bytes of the slot (R62). -/
theorem copyFromSlot_congr {n : Nat} {s t : Word} (h : ∀ i, i < n → slotByte s i = slotByte t i) (m : Memory)
    (off : Nat) : copyFromSlot m off s n = copyFromSlot m off t n := by
  induction n with
  | zero => rfl
  | succ n ih => rw [copyFromSlot, copyFromSlot, ih fun i hi => h i (by omega), h n (by omega)]

/-- The MEM fixture's write depends only on the low `n` bytes of the slot (R62, R172). -/
theorem memFixtureWrite_congr {n : Nat} {s t : Word} (h : ∀ i, i < n → slotByte s i = slotByte t i) (w : Window)
    (m : Memory) (k : Nat) : memFixtureWrite w m k s n = memFixtureWrite w m k t n := by
  induction n with
  | zero => rfl
  | succ n ih => rw [memFixtureWrite, memFixtureWrite, ih fun i hi => h i (by omega), h n (by omega)]

end Sys2Proof.Machine
end

