-- ==== Sys2Proof/Laws/Ops.lean ====
section
/-! SUPPORT. Laws/Ops.lean: the shared checks of a transaction, and what one transaction can do to the state, said once:
`Effect` and `exec_cases`. Later proofs cite `exec_cases` instead of unfolding a meaning. -/

namespace Sys2Proof.Machine

theorem gate_of_accepts {s : State} (h : Accepts s) (k : Result) : gate s k = k := by
  simp [gate, h.1, h.2]

theorem gate_of_faulted {s : State} {r : FaultRecord} (h : s.faulted = some r) (k : Result) :
    gate s k = .fault (.stuck r) := by
  simp [gate, h]

theorem gate_of_not_ready {s : State} (h : s.ready = false) (h' : s.faulted = none) (k : Result) :
    gate s k = .fault .notBroughtUp := by
  simp [gate, h, h']

/-- A request that gets past the first check of R204 was presented to an accepting block. -/
theorem gate_eq {s : State} {k r : Result} (h : gate s k = r) :
    (Accepts s ∧ k = r) ∨ ∃ f, r = .fault f := by
  simp only [gate] at h
  split at h
  · exact .inr ⟨_, h.symm⟩
  · split at h
    · exact .inl ⟨⟨‹_›, ‹_›⟩, h⟩
    · exact .inr ⟨_, h.symm⟩

theorem withCount_countField (rec : PortRecord) (c : ByteCount) (s : State) (k : ByteCount → Result) :
    withCount rec (countField c) s k = k c := by
  simp [withCount]

theorem withCount_illegal {rec : PortRecord} {n : Byte} {s : State} {k : ByteCount → Result}
    (h : legalCount n = false) : withCount rec n s k = .next (raiseFault s .badByteCount ⟨rec, none⟩) := by
  simp [withCount, byteCount?_eq_none h]

/-- An upstream transaction with a legal byteCount is its body. -/
theorem transact_legal {rec : PortRecord} {c : ByteCount} {s : State} (h : Accepts s) (body : ByteCount → Txn) :
    transact rec (countField c) s body = settle rec .rsp s (body c) := by
  rw [transact, gate_of_accepts h, withCount_countField]

theorem transact_illegal {rec : PortRecord} {n : Byte} {s : State} (h : Accepts s) (hn : legalCount n = false)
    (body : ByteCount → Txn) :
    transact rec n s body = .next (raiseFault s .badByteCount ⟨rec, none⟩) := by
  rw [transact, gate_of_accepts h, withCount_illegal hn]

/-- A downstream call with a legal byteCount to an attached device is its body. -/
theorem callDevice_legal {rec : PortRecord} {r : DevRef} {c : ByteCount} {s : State} {d : Device} (h : Accepts s)
    (hd : deviceAt? s r = some d) (mk : OutcomeTag → Word → Response) (body : ByteCount → Device → Txn) :
    callDevice rec r (countField c) s mk body = settle rec mk s (body c d) := by
  simp only [callDevice, gate_of_accepts h, withCount_countField, hd]

theorem callDevice_illegal {rec : PortRecord} {r : DevRef} {n : Byte} {s : State} (h : Accepts s)
    (hn : legalCount n = false) (mk : OutcomeTag → Word → Response) (body : ByteCount → Device → Txn) :
    callDevice rec r n s mk body = .next (raiseFault s .badByteCount ⟨rec, none⟩) := by
  rw [callDevice, gate_of_accepts h, withCount_illegal hn]

theorem callDevice_missing {rec : PortRecord} {r : DevRef} {c : ByteCount} {s : State} (h : Accepts s)
    (hd : deviceAt? s r = none) (mk : OutcomeTag → Word → Response) (body : ByteCount → Device → Txn) :
    callDevice rec r (countField c) s mk body = .fault (.noSuchDevice r) := by
  simp only [callDevice, gate_of_accepts h, withCount_countField, hd]

/-- A data path that fits its window. -/
theorem dataPathOk_dataRead {b : Bus} {d : Device} (h : dataPathOk d.window d.data = true) (k : Nat) (c : ByteCount)
    (a v : Word) : dataPathOk d.window (dataRead b d k c a v).2 = true := by
  unfold dataRead
  split
  · rfl
  · simp_all

theorem dataPathOk_dataWrite {b : Bus} {d : Device} (h : dataPathOk d.window d.data = true) (k : Nat) (c : ByteCount)
    (a v : Word) : dataPathOk d.window (dataWrite b d k c a v) = true := by
  unfold dataWrite
  split
  · rfl
  · rename_i m hm
    rw [hm] at h
    exact decide_eq_true (memFixtureWrite_ok (of_decide_eq_true h) _ _ _)

/-- What a completed transaction with target `g` and outcome `o` can do to the state: nothing; one event, on a miss; one
data call of the device that is its target; the bytes of one span of that device's buffer; or those of one span of the
bridge's buffer. -/
inductive Effect (s : State) (g : Target) : OutcomeTag → State → Prop
  | same (o : OutcomeTag) : Effect s g o s
  | event {o : OutcomeTag} (ev : Event) : outcomeClass o ≠ none → Effect s g o (emit s ev)
  | data {r : DevRef} {d : Device} (p : DataPath) : g = .data r → deviceAt? s r = some d →
      (dataPathOk d.window d.data = true → dataPathOk d.window p = true) → Effect s g .hitDevice (putData s r d p)
  | devCfg {r : DevRef} {d : Device} {buf : Memory} {off n : Nat} (v : Word) : g = .config r → deviceAt? s r = some d →
      d.config = .pci buf → off + n ≤ devCfgSize →
      Effect s g .hitDevice (putDevice s r { d with config := .pci (copyFromSlot buf off v n) })
  | brCfg {off n : Nat} (v : Word) : g = .bridge → off + n ≤ brCfgSize →
      Effect s g .hitBridgeCfg { s with brCfg := copyFromSlot s.brCfg off v n }

/-- A transaction body that completes has one of the effects. -/
def BodyOk (s : State) (g : Target) (x : Txn) : Prop := ∀ t o v, x = .done t o v → Effect s g o t

theorem deviceRead_ok {s : State} {r : DevRef} {d : Device} (h : deviceAt? s r = some d) (c : ByteCount) (a v : Word) :
    BodyOk s (.data r) (deviceRead r d c a v s) := by
  rintro t o w ⟨⟩
  exact .data _ rfl h fun hd => dataPathOk_dataRead hd _ _ _ _

theorem deviceWrite_ok {s : State} {r : DevRef} {d : Device} (h : deviceAt? s r = some d) (c : ByteCount) (a v : Word) :
    BodyOk s (.data r) (deviceWrite r d c a v s) := by
  rintro t o w ⟨⟩
  exact .data _ rfl h fun hd => dataPathOk_dataWrite hd _ _ _ _

theorem deviceCfgRead_ok {s : State} {g : Target} {r : DevRef} {d : Device} (c : ByteCount) (a v : Word) :
    BodyOk s g (deviceCfgRead r d c a v s) := by
  intro t o w h
  unfold deviceCfgRead at h
  split at h <;> [skip; split at h] <;> cases h <;> exact .same _

theorem deviceCfgWrite_ok {s : State} {r : DevRef} {d : Device} (hd : deviceAt? s r = some d) (c : ByteCount)
    (a v : Word) : BodyOk s (.config r) (deviceCfgWrite r d c a v s) := by
  intro t o w h
  unfold deviceCfgWrite at h
  split at h
  · cases h; exact .same _
  · split at h
    · cases h
    · cases h; exact .devCfg _ rfl hd ‹_› (by omega)

theorem pciRead_ok (s : State) (b : Bus) (c : ByteCount) (a v : Word) :
    BodyOk s (dataTarget s b a) (pciRead b c a v s) := by
  intro t o w h
  unfold pciRead at h
  split at h <;> rename_i hr <;> simp only [dataTarget, hr]
  · cases h; exact .event _ (by decide)
  · exact deviceRead_ok (r := ⟨b, _⟩) (dataRoute_at hr) c a v t o w h
  · cases h; exact .event _ (by decide)

theorem pciWrite_ok (s : State) (b : Bus) (c : ByteCount) (a v : Word) :
    BodyOk s (dataTarget s b a) (pciWrite b c a v s) := by
  intro t o w h
  unfold pciWrite at h
  split at h <;> rename_i hr <;> simp only [dataTarget, hr]
  · cases h; exact .same _
  · exact deviceWrite_ok (r := ⟨b, _⟩) (dataRoute_at hr) c a v t o w h
  · cases h; exact .event _ (by decide)

theorem brCfgRead_ok (s : State) (c : ByteCount) (a v : Word) : BodyOk s (cfgTarget s a) (brCfgRead c a v s) := by
  intro t o w h
  unfold brCfgRead at h
  split at h
  · split at h <;> cases h; exact .same _
  · cases h; exact .event _ (by decide)
  · cases h; exact .event _ (by decide)
  · exact deviceCfgRead_ok c a v t o w h

theorem brCfgWrite_ok (s : State) (c : ByteCount) (a v : Word) : BodyOk s (cfgTarget s a) (brCfgWrite c a v s) := by
  intro t o w h
  unfold brCfgWrite at h
  split at h <;> rename_i hr <;> simp only [cfgTarget, hr]
  · split at h
    · cases h
    · cases h; exact .brCfg _ rfl (by omega)
  · cases h; exact .event _ (by decide)
  · cases h; exact .event _ (by decide)
  · exact deviceCfgWrite_ok (r := ⟨.br, _⟩) (cfgRoute_at hr) c a v t o w h

theorem sbRead_ok (s : State) (c : ByteCount) (a v : Word) : BodyOk s (sbTarget s a) (sbRead c a v s) := by
  intro t o w h
  unfold sbRead at h
  split at h <;> rename_i hr <;> simp only [sbTarget, hr]
  · exact deviceRead_ok (r := ⟨.sb, _⟩) (sbRoute_at hr) c a v t o w h
  · by_cases hf : s.fwdCfgAtSb = true
    · rw [if_pos hf] at h ⊢; exact brCfgRead_ok s c a v t o w h
    · rw [if_neg hf] at h; cases h; exact .event _ (by decide)
  · exact pciRead_ok s .br c a v t o w h
  · cases h; exact .event _ (by decide)

theorem sbWrite_ok (s : State) (c : ByteCount) (a v : Word) : BodyOk s (sbTarget s a) (sbWrite c a v s) := by
  intro t o w h
  unfold sbWrite at h
  split at h <;> rename_i hr <;> simp only [sbTarget, hr]
  · exact deviceWrite_ok (r := ⟨.sb, _⟩) (sbRoute_at hr) c a v t o w h
  · by_cases hf : s.fwdCfgAtSb = true
    · rw [if_pos hf] at h ⊢; exact brCfgWrite_ok s c a v t o w h
    · rw [if_neg hf] at h; cases h; exact .event _ (by decide)
  · exact pciWrite_ok s .br c a v t o w h
  · cases h; exact .event _ (by decide)

/-- A model fault of a transaction with record `rec` (R203): a bad byteCount, or a span check with buffer and offset. -/
def FaultOf (rec : PortRecord) (rn : FaultReason) (inf : FaultInfo) : Prop :=
  inf.record = rec ∧
    ((rn = .badByteCount ∧ inf.span = none) ∨ (rn = .cfgBounds ∧ ∃ b off, inf.span = some (b, off)))

/-- The outcomes of an instruction with record `rec` and target `g` presented to `s`: it stops; it raises a model fault
and does nothing else; or it completes with one effect and a response. It is never refused. -/
inductive ExecCases (rec : PortRecord) (g : Target) (s : State) : Result → Prop
  | stops (f : Fault) : ExecCases rec g s (.fault f)
  | raises {rn : FaultReason} {inf : FaultInfo} : Accepts s → FaultOf rec rn inf →
      ExecCases rec g s (.next (raiseFault s rn inf))
  | completes {o : OutcomeTag} {t : State} (resp : Response) : Accepts s → Effect s g o t →
      (∀ o' v, resp = .rsp o' v → o' = o) → ExecCases rec g s (.next { t with response := some resp })

theorem settle_cases {s : State} {g : Target} {x : Txn} (hs : Accepts s) (hx : BodyOk s g x) (rec : PortRecord)
    (mk : OutcomeTag → Word → Response) (hmk : ∀ o v o' v', mk o v = .rsp o' v' → o' = o) :
    ExecCases rec g s (settle rec mk s x) := by
  cases x with
  | done t o v => exact .completes _ hs (hx t o v rfl) fun o' v' h => hmk o v o' v' h
  | bounds b off => exact .raises hs ⟨rfl, .inr ⟨rfl, _, _, rfl⟩⟩

theorem withCount_cases {s : State} {g : Target} {rec : PortRecord} {k : ByteCount → Result} (hs : Accepts s)
    (hk : ∀ c, ExecCases rec g s (k c)) (n : Byte) : ExecCases rec g s (withCount rec n s k) := by
  unfold withCount
  split
  · exact hk _
  · exact .raises hs ⟨rfl, .inl ⟨rfl, rfl⟩⟩

theorem transact_cases {s : State} {g : Target} {body : ByteCount → Txn} (hb : ∀ c, BodyOk s g (body c))
    (rec : PortRecord) (n : Byte) : ExecCases rec g s (transact rec n s body) := by
  rcases gate_eq (s := s) (r := transact rec n s body) rfl with ⟨hs, h⟩ | ⟨f, h⟩
  · rw [← h]
    exact withCount_cases hs (fun c => settle_cases hs (hb c) rec .rsp fun o v o' v' h => by cases h; rfl) n
  · rw [h]; exact .stops f

theorem callDevice_cases {s : State} {g : Target} {body : ByteCount → Device → Txn} {r : DevRef}
    (hb : ∀ c d, deviceAt? s r = some d → BodyOk s g (body c d)) (rec : PortRecord) (n : Byte)
    (mk : OutcomeTag → Word → Response) (hmk : ∀ o v o' v', mk o v = .rsp o' v' → o' = o) :
    ExecCases rec g s (callDevice rec r n s mk body) := by
  rcases gate_eq (s := s) (r := callDevice rec r n s mk body) rfl with ⟨hs, h⟩ | ⟨f, h⟩
  · rw [← h]
    refine withCount_cases hs (fun c => ?_) n
    split
    · exact .stops _
    · exact settle_cases hs (hb c _ ‹_›) rec mk hmk
  · rw [h]; exact .stops f

/-- Everything an instruction can do, said once. -/
theorem exec_cases (i : Instr) (s : State) : ExecCases (encode i) (target i s) s (exec i s) := by
  cases i with
  | sbRead n a v => exact transact_cases (fun c => sbRead_ok s c a v) _ n
  | sbWrite n a v => exact transact_cases (fun c => sbWrite_ok s c a v) _ n
  | brRead n a v => exact transact_cases (fun c => pciRead_ok s .br c a v) _ n
  | brWrite n a v => exact transact_cases (fun c => pciWrite_ok s .br c a v) _ n
  | brCfgRead n a v => exact transact_cases (fun c => brCfgRead_ok s c a v) _ n
  | brCfgWrite n a v => exact transact_cases (fun c => brCfgWrite_ok s c a v) _ n
  | pbRead n a v => exact transact_cases (fun c => pciRead_ok s .pb c a v) _ n
  | pbWrite n a v => exact transact_cases (fun c => pciWrite_ok s .pb c a v) _ n
  | pbCfgRead n a v => exact transact_cases (fun c => by rintro t o w ⟨⟩; exact .same _) _ n
  | pbCfgWrite n a v => exact transact_cases (fun c => by rintro t o w ⟨⟩; exact .same _) _ n
  | devRead r n a v => exact callDevice_cases (fun c d h => deviceRead_ok h c a v) _ n _ fun _ _ _ _ h => by cases h
  | devWrite r n a v => exact callDevice_cases (fun c d h => deviceWrite_ok h c a v) _ n _ fun _ _ _ _ h => by cases h
  | devCfgRead r n a v =>
    exact callDevice_cases (fun c d _ => deviceCfgRead_ok c a v) _ n _ fun _ _ _ _ h => by cases h
  | devCfgWrite r n a v =>
    exact callDevice_cases (fun c d h => deviceCfgWrite_ok h c a v) _ n _ fun _ _ _ _ h => by cases h
  | devIdentify r =>
    rcases gate_eq (s := s) (r := exec (.devIdentify r) s) rfl with ⟨hs, h⟩ | ⟨f, h⟩
    · rw [← h]
      split
      · exact .stops _
      · exact .completes (o := .noopCfg) _ hs (.same _) fun _ _ h => by cases h
    · rw [h]; exact .stops f

/-- The step of an accepting block: the instruction it picked, a bad header, or nothing presented. -/
inductive StepCases (s : State) : Result → Prop
  | runs {r : PortRecord} {t : State} {i : Instr} : arbitrate s = some (r, t) → decode r = .ok i →
      StepCases s (exec i t)
  | badRequest {r : PortRecord} {t : State} : arbitrate s = some (r, t) → decode r = .error .badRequest →
      StepCases s (.next (raiseFault t .badRequest ⟨r, none⟩))
  | refuses (d : BitVec 3) : StepCases s (.refused (.dopNeverIssued d))
  | idle : arbitrate s = none → StepCases s (.next s)
  | stops (f : Fault) : StepCases s (.fault f)

/-- Everything a step can do, said once. -/
theorem step_cases (s : State) : StepCases s (step s) := by
  rcases gate_eq (s := s) (r := step s) rfl with ⟨_, h⟩ | ⟨f, h⟩
  · rw [← h]
    split
    · unfold perform
      split
      · exact .runs ‹_› ‹_›
      · exact .badRequest ‹_› ‹_›
      · exact .refuses _
    · exact .idle ‹_›
  · rw [h]; exact .stops f

end Sys2Proof.Machine
end

