-- ==== Sys2Proof/Laws/Arbiter.lean ====
section
/-! SUPPORT. Laws/Arbiter.lean: what the arbiter takes of what is presented (20_memory.md R69, R70), and what
the effect of a transaction leaves alone. -/

namespace Sys2Proof.Machine

theorem popIssuer_of_get {qs : List (List ReqWord)} {g : Nat} {r : ReqWord} {q : List ReqWord}
    (h : qs[g]? = some (r :: q)) : popIssuer qs g = some (r, qs.set g q) := by
  induction qs generalizing g with
  | nil => simp at h
  | cons x xs ih =>
    cases g with
    | zero =>
      simp only [List.getElem?_cons_zero, Option.some.injEq] at h
      subst h; rfl
    | succ g =>
      simp only [List.getElem?_cons_succ] at h
      cases x <;> simp [popIssuer, ih h]

theorem popIssuer_get {qs qs' : List (List ReqWord)} {g : Nat} {r : ReqWord}
    (h : popIssuer qs g = some (r, qs')) : ∃ q, qs[g]? = some (r :: q) ∧ qs' = qs.set g q := by
  induction qs generalizing g r qs' with
  | nil => simp [popIssuer] at h
  | cons x xs ih =>
    cases g with
    | zero =>
      cases x with
      | nil => simp [popIssuer] at h
      | cons y q =>
        simp only [popIssuer, Option.some.injEq, Prod.mk.injEq] at h
        exact ⟨q, by simp [h.1], by simp [h.2]⟩
    | succ g =>
      cases hp : popIssuer xs g with
      | none => cases x <;> simp [popIssuer, hp] at h
      | some p =>
        obtain ⟨r', qs''⟩ := p
        have hh : r' = r ∧ x :: qs'' = qs' := by cases x <;> simpa [popIssuer, hp] using h
        obtain ⟨q, h1, h2⟩ := ih hp
        obtain ⟨rfl, rfl⟩ := hh
        exact ⟨q, by simpa using h1, by simp [h2]⟩

theorem popFirst_get {qs qs' : List (List ReqWord)} {r : ReqWord} (h : popFirst qs = some (r, qs')) :
    ∃ g q, qs[g]? = some (r :: q) ∧ qs' = qs.set g q := by
  induction qs generalizing r qs' with
  | nil => simp [popFirst] at h
  | cons x xs ih =>
    cases x with
    | cons r' q =>
      simp only [popFirst, Option.some.injEq, Prod.mk.injEq] at h
      exact ⟨0, q, by simp [h.1], by simp [h.2]⟩
    | nil =>
      cases hp : popFirst xs with
      | none => simp [popFirst, hp] at h
      | some p =>
        obtain ⟨r', qs''⟩ := p
        simp only [popFirst, hp, Option.some.injEq, Prod.mk.injEq] at h
        obtain ⟨g, q, h1, h2⟩ := ih hp
        exact ⟨g + 1, q, by simp [h1, h.1], by simp [← h.2, h2]⟩

/-- The arbiter finds nothing exactly when no issuer has presented a request. -/
theorem popFirst_none {qs : List (List ReqWord)} : popFirst qs = none ↔ ∀ q ∈ qs, q = [] := by
  induction qs with
  | nil => simp [popFirst]
  | cons x xs ih =>
    cases x with
    | cons r' q => simp [popFirst]
    | nil =>
      simp only [List.forall_mem_cons, true_and, ← ih, popFirst]
      cases popFirst xs <;> simp

theorem popFirst_replicate (k : Nat) (r : ReqWord) (q : List ReqWord) (qs : List (List ReqWord)) :
    popFirst (List.replicate k [] ++ (r :: q) :: qs) = some (r, List.replicate k [] ++ q :: qs) := by
  induction k with
  | zero => rfl
  | succ k ih => simp [List.replicate_succ, popFirst, ih]

/-- What a pick among the issuers' queues takes, in terms of the queues. -/
theorem takeRequest_get {s t : State} {r : PortRecord} {o : Option (ReqWord × List (List ReqWord))}
    (ho : ∀ w qs, o = some (w, qs) → ∃ k q, s.issuers[k]? = some (w :: q) ∧ qs = s.issuers.set k q)
    (h : takeRequest s o = some (r, t)) : ∃ k w q, r = .req w ∧ s.issuers[k]? = some (w :: q) ∧
      t = { s with issuers := s.issuers.set k q } := by
  cases o with
  | none => cases h
  | some p =>
    obtain ⟨w, qs⟩ := p
    obtain ⟨k, q, hk, rfl⟩ := ho w qs rfl
    cases h
    exact ⟨k, w, q, rfl, hk, rfl⟩

theorem takeCall_get {s t : State} {r : PortRecord} (h : takeCall s = some (r, t)) :
    ∃ c cs, r = .dev c ∧ s.deviceCalls = c :: cs ∧ t = { s with deviceCalls := cs } := by
  unfold takeCall at h
  split at h
  · cases h; exact ⟨_, _, rfl, ‹_›, rfl⟩
  · cases h

/-- A record taken from `s` is the oldest request of one issuer or the oldest call at the device port, and only that is
gone. -/
def Took (s : State) (r : PortRecord) (t : State) : Prop :=
  (∃ k w q, r = .req w ∧ s.issuers[k]? = some (w :: q) ∧ t = { s with issuers := s.issuers.set k q }) ∨
  (∃ c cs, r = .dev c ∧ s.deviceCalls = c :: cs ∧ t = { s with deviceCalls := cs })

theorem takeGranted_took {s t : State} {g : Grant} {r : PortRecord} (h : takeGranted s g = some (r, t)) : Took s r t := by
  cases g with
  | issuer k =>
    refine .inl (takeRequest_get (fun w qs hp => ?_) h)
    obtain ⟨q, h1, h2⟩ := popIssuer_get hp
    exact ⟨k, q, h1, h2⟩
  | devicePort => exact .inr (takeCall_get h)

theorem takeAny_took {s t : State} {r : PortRecord} (h : takeAny s = some (r, t)) : Took s r t := by
  unfold takeAny at h
  split at h
  · cases h; exact .inl (takeRequest_get (fun _ _ hp => popFirst_get hp) ‹_›)
  · exact .inr (takeCall_get h)

/-- Nothing is served exactly when no issuer has presented a request and no call is pending. -/
theorem takeAny_none {s : State} : takeAny s = none ↔ (∀ q ∈ s.issuers, q = []) ∧ s.deviceCalls = [] := by
  rw [← popFirst_none]
  unfold takeAny takeCall
  cases popFirst s.issuers <;> cases s.deviceCalls <;> simp [takeRequest]

/-- A grant that names nobody with something presented takes nothing. -/
theorem takeGranted_none {s : State} {g : Grant} (h : NamesNobody s g) : takeGranted s g = none := by
  cases g with
  | issuer k =>
    cases hp : popIssuer s.issuers k with
    | none => simp [takeGranted, takeRequest, hp]
    | some p =>
      obtain ⟨q, h1, -⟩ := popIssuer_get (r := p.1) (qs' := p.2) hp
      cases h _ h1
  | devicePort => simp [takeGranted, takeCall, show s.deviceCalls = [] from h]

/-- The arbiter takes one record, and consumes one grant (R69, R70). -/
theorem arbitrate_took {s t : State} {r : PortRecord} (h : arbitrate s = some (r, t)) :
    Took { s with grants := s.grants.tail } r t := by
  unfold arbitrate at h
  split at h <;> rename_i hg
  · have e : s = { s with grants := s.grants.tail } := by cases s; cases hg; rfl
    rw [e] at h; exact takeAny_took h
  · rw [hg]
    split at h
    · cases h; exact takeGranted_took ‹_›
    · exact takeAny_took h

theorem arbitrate_none {s : State} : arbitrate s = none ↔ (∀ q ∈ s.issuers, q = []) ∧ s.deviceCalls = [] := by
  unfold arbitrate
  split
  · exact takeAny_none
  · rename_i g gs _
    split
    · rename_i p hp
      refine ⟨nofun, fun h => ?_⟩
      rcases takeGranted_took (r := p.1) (t := p.2) hp with ⟨k, w, q, -, h1, -⟩ | ⟨c, cs, -, h1, -⟩
      · cases h.1 _ (List.mem_of_getElem? h1)
      · cases h.2.symm.trans h1
    · exact takeAny_none

/-- With no grant, or one that names nobody, the arbiter serves as without. -/
theorem arbitrate_any {s : State} (h : ∀ g, s.grants.head? = some g → NamesNobody s g) :
    arbitrate s = takeAny { s with grants := s.grants.tail } := by
  unfold arbitrate
  split <;> rename_i hg
  · have e : s = { s with grants := s.grants.tail } := by cases s; cases hg; rfl
    rw [← e]
  · have hn : NamesNobody { s with grants := s.grants.tail } _ := h _ (by rw [hg]; rfl)
    simp only [hg, List.tail_cons] at hn ⊢
    rw [takeGranted_none hn]

/-- What the arbiter leaves alone: everything but what is pending and the grants. -/
theorem arbitrate_keeps {s t : State} {r : PortRecord} (h : arbitrate s = some (r, t)) :
    t = { s with issuers := t.issuers, deviceCalls := t.deviceCalls, grants := t.grants } ∧
      t.issuers.length = s.issuers.length := by
  rcases arbitrate_took h with ⟨k, w, q, -, -, rfl⟩ | ⟨c, cs, -, -, rfl⟩
  · exact ⟨rfl, List.length_set ..⟩
  · exact ⟨rfl, rfl⟩

/-- What no completed transaction changes. -/
theorem Effect.keeps {s t : State} {g : Target} {o : OutcomeTag} (h : Effect s g o t) :
    t.faulted = s.faulted ∧ t.issuers = s.issuers ∧ t.deviceCalls = s.deviceCalls ∧ t.grants = s.grants ∧
      t.ready = s.ready ∧ t.fwdCfgAtSb = s.fwdCfgAtSb := by
  cases h <;> simp

/-- A miss has no effect but an event (R202). -/
theorem Effect.of_miss {s t : State} {g : Target} {o : OutcomeTag} (h : Effect s g o t) (ho : outcomeClass o ≠ none) :
    t = s ∨ ∃ ev, t = emit s ev := by
  cases h with
  | same => exact .inl rfl
  | event ev => exact .inr ⟨ev, rfl⟩
  | data => exact absurd rfl ho
  | devCfg => exact absurd rfl ho
  | brCfg => exact absurd rfl ho

/-- A property that the unchanged state has and each effect keeps is kept by every instruction that answers a next
state, when the response and the model fault have no part in it. -/
theorem exec_keeps {P : State → Prop} {i : Instr} {s t : State} (h : exec i s = .next t)
    (hf : ∀ rn inf, P (raiseFault s rn inf))
    (hc : ∀ o u resp, Effect s (target i s) o u → P { u with response := some resp }) : P t := by
  have hx := exec_cases i s
  rw [h] at hx
  cases hx with
  | raises _ _ => exact hf _ _
  | completes resp _ he _ => exact hc _ _ _ he

end Sys2Proof.Machine
end

