-- ==== Sys2Proof/Laws/Decode.lean ====
section
/-! SUPPORT. Laws/Decode.lean: the fields of a REQ record and the round trip of decoder and encoder. -/

namespace Sys2Proof

section
variable (h n : Byte) (a d : Word)

/-- Each bit of a record is a bit of one field (R80). -/
theorem getLsbD_fields (i : Nat) : BitVec.getLsbD (w := 144) (h ++ n ++ a ++ d) i =
    if i < 64 then d.getLsbD i else if i < 128 then a.getLsbD (i - 64)
    else if i < 136 then n.getLsbD (i - 128) else h.getLsbD (i - 136) := by
  change BitVec.getLsbD (w := 8 + 8 + 64 + 64) (h ++ n ++ a ++ d) i = _
  rw [BitVec.getLsbD_append, BitVec.getLsbD_append, BitVec.getLsbD_append]
  have e1 : i - 64 - 64 = i - 128 := by omega
  have e2 : i - 128 - 8 = i - 136 := by omega
  have c1 : i - 64 < 64 ↔ i < 128 := by omega
  have c2 : i - 128 < 8 ↔ i < 136 := by omega
  simp only [e1, e2, c1, c2]

theorem reqHdr_mk : reqHdr (h ++ n ++ a ++ d) = h := by
  apply BitVec.eq_of_getLsbD_eq; intro i hi
  rw [reqHdr, BitVec.getLsbD_extractLsb', getLsbD_fields]
  simp [hi, show ¬ 136 + i < 64 by omega, show ¬ 136 + i < 128 by omega]

theorem reqCount_mk : reqCount (h ++ n ++ a ++ d) = n := by
  apply BitVec.eq_of_getLsbD_eq; intro i hi
  rw [reqCount, BitVec.getLsbD_extractLsb', getLsbD_fields]
  simp [hi, show ¬ 128 + i < 64 by omega, show 128 + i < 136 by omega]

theorem reqAddr_mk : reqAddr (h ++ n ++ a ++ d) = a := by
  apply BitVec.eq_of_getLsbD_eq; intro i hi
  rw [reqAddr, BitVec.getLsbD_extractLsb', getLsbD_fields]
  simp [hi, show 64 + i < 128 by omega]

theorem reqData_mk : reqData (h ++ n ++ a ++ d) = d := by
  apply BitVec.eq_of_getLsbD_eq; intro i hi
  rw [reqData, BitVec.getLsbD_extractLsb', getLsbD_fields]
  simp [hi]

/-- A record is the concatenation of its four fields (R80). -/
theorem req_eq_fields (w : ReqWord) : (reqHdr w ++ reqCount w ++ reqAddr w ++ reqData w : ReqWord) = w := by
  apply BitVec.eq_of_getLsbD_eq; intro i hi
  rw [getLsbD_fields]
  split
  · rw [reqData, BitVec.getLsbD_extractLsb', Nat.zero_add, decide_eq_true ‹_›, Bool.true_and]
  · split
    · rw [reqAddr, BitVec.getLsbD_extractLsb', decide_eq_true (by omega), Bool.true_and,
        Nat.add_sub_of_le (by omega)]
    · split
      · rw [reqCount, BitVec.getLsbD_extractLsb', decide_eq_true (by omega), Bool.true_and,
          Nat.add_sub_of_le (by omega)]
      · rw [reqHdr, BitVec.getLsbD_extractLsb', decide_eq_true (by omega), Bool.true_and,
          Nat.add_sub_of_le (by omega)]

end

/-- Decoding an upstream record whose header is `h` looks at `h` alone to choose the operation. -/
theorem decode_mkReq (h n : Byte) (a d : Word) :
    decode (mkReq h n a d) =
      match h.toNat with
      | 0x00 => .ok (.sbRead n a d)
      | 0x01 => .ok (.sbWrite n a d)
      | 0x04 => .ok (.brRead n a d)
      | 0x05 => .ok (.brWrite n a d)
      | 0x06 => .ok (.brCfgRead n a d)
      | 0x07 => .ok (.brCfgWrite n a d)
      | 0x08 => .ok (.pbRead n a d)
      | 0x09 => .ok (.pbWrite n a d)
      | 0x0A => .ok (.pbCfgRead n a d)
      | 0x0B => .ok (.pbCfgWrite n a d)
      | _ => .error .badRequest := by
  simp only [decode, mkReq, decodeReq, reqHdr_mk, reqCount_mk, reqAddr_mk, reqData_mk] <;> rfl

/-- A record is made of its own fields (R80). -/
theorem mkReq_fields (w : ReqWord) : mkReq (reqHdr w) (reqCount w) (reqAddr w) (reqData w) = .req w := by
  rw [mkReq, req_eq_fields]

end Sys2Proof
end

