-- ==== Sys2Proof/Laws/Invariant.lean ====
section
/-! SUPPORT. Laws/Invariant.lean: replacing the device at one reference, and what it keeps: every other device, the
descriptors, and the invariant of a device. -/

namespace Sys2Proof.Machine

/-- The checks of R24 and R28 on one device, one by one. -/
theorem deviceOk_iff (d : Device) : deviceOk d = true ↔ d.window.start ≤ d.window.stop ∧
    (∀ m, d.config = .pci m → imageOk m devCfgSize) ∧
    (∀ m, d.data = .memFixture m → imageOk m ((d.window.stop - d.window.start).toNat + 1)) := by
  rw [deviceOk, Bool.and_eq_true, Bool.and_eq_true, decide_eq_true_eq, and_assoc]
  refine and_congr Iff.rfl (and_congr ?_ ?_)
  · cases d.config with
    | mmio => simp [cfgSpaceOk]
    | pci m => rw [cfgSpaceOk, decide_eq_true_eq]; exact ⟨fun h _ e => by cases e; exact h, fun h => h m rfl⟩
  · cases d.data with
    | param => simp [dataPathOk]
    | memFixture m => rw [dataPathOk, decide_eq_true_eq]; exact ⟨fun h _ e => by cases e; exact h, fun h => h m rfl⟩

/-- Replacing one device leaves every other one in place. -/
theorem deviceAt?_putDevice (s : State) {r r' : DevRef} (e : Device) (h : r' ≠ r) :
    deviceAt? (putDevice s r e) r' = deviceAt? s r' := by
  rcases r with ⟨b, p⟩
  rcases r' with ⟨b', p'⟩
  simp only [deviceAt?, devices_putDevice]
  split
  · rename_i hb
    subst hb
    have : p ≠ p' := by rintro rfl; exact h rfl
    simp [List.getElem?_set_ne this]
  · rfl

/-- The device at the reference is the new one, if there was one. -/
theorem deviceAt?_putDevice_self {s : State} {r : DevRef} {d : Device} (e : Device) (h : deviceAt? s r = some d) :
    deviceAt? (putDevice s r e) r = some e := by
  have := (List.getElem?_eq_some_iff.1 h).1
  simp [deviceAt?, devices_putDevice, this]

/-- The device at a reference is attached. -/
theorem mem_allDevices {s : State} {r : DevRef} {d : Device} (h : deviceAt? s r = some d) : d ∈ allDevices s := by
  have := List.mem_of_getElem? h
  rcases r with ⟨b, p⟩
  cases b <;> simp_all [allDevices]

/-- A projection that the new device shares with the old one is the same all along the list. -/
theorem map_set_of_eq {α : Type} {f : Device → α} {l : List Device} {i : Nat} {d e : Device} (h : l[i]? = some d)
    (hf : f e = f d) : (l.set i e).map f = l.map f := by
  apply List.ext_getElem?
  intro j
  simp only [List.getElem?_map, List.getElem?_set]
  split
  · subst_vars
    simp only [h, Option.map_some]
    rw [if_pos (List.getElem?_eq_some_iff.1 h).1, Option.map_some]
    simp [hf]
  · rfl

/-- What holds of the new device and of all the old ones holds of all devices after the replacement. -/
theorem forall_allDevices_putDevice {P : Device → Prop} {s : State} {r : DevRef} {e : Device}
    (h : ∀ d ∈ allDevices s, P d) (he : P e) : ∀ d ∈ allDevices (putDevice s r e), P d := by
  rcases r with ⟨b, p⟩
  intro x hx
  simp only [allDevices, List.mem_append] at h hx
  cases b <;> simp only [putDevice, devices_sb, devices_br, devices_pb, setDevices_to_sb, setDevices_to_br,
      setDevices_to_pb] at hx
  · rcases hx with (hx | hx) | hx
    · rcases List.mem_or_eq_of_mem_set hx with hx | rfl
      · exact h x (.inl (.inl hx))
      · exact he
    · exact h x (.inl (.inr hx))
    · exact h x (.inr hx)
  · rcases hx with (hx | hx) | hx
    · exact h x (.inl (.inl hx))
    · rcases List.mem_or_eq_of_mem_set hx with hx | rfl
      · exact h x (.inl (.inr hx))
      · exact he
    · exact h x (.inr hx)
  · rcases hx with (hx | hx) | hx
    · exact h x (.inl (.inl hx))
    · exact h x (.inl (.inr hx))
    · rcases List.mem_or_eq_of_mem_set hx with hx | rfl
      · exact h x (.inr hx)
      · exact he

/-- Replacing a device by one with its descriptor keeps the topology (R25). -/
theorem sameTopology_putDevice {s : State} {r : DevRef} {d e : Device} (hd : deviceAt? s r = some d)
    (he : descriptorOf e = descriptorOf d) : SameTopology s (putDevice s r e) := by
  rcases r with ⟨b, p⟩
  cases b
  · exact ⟨map_set_of_eq hd he, rfl, rfl, rfl, rfl⟩
  · exact ⟨rfl, map_set_of_eq hd he, rfl, rfl, rfl⟩
  · exact ⟨rfl, rfl, map_set_of_eq hd he, rfl, rfl⟩

/-- Replacing a device by one with its identity keeps the identities. -/
theorem ids_putDevice {s : State} {r : DevRef} {d e : Device} (hd : deviceAt? s r = some d) (he : e.id = d.id) :
    (allDevices (putDevice s r e)).map (·.id) = (allDevices s).map (·.id) := by
  rcases r with ⟨b, p⟩
  have key : ∀ l : List Device, l[p]? = some d → (l.set p e).map (·.id) = l.map (·.id) :=
    fun l h => map_set_of_eq h he
  cases b <;> simp only [allDevices, putDevice, devices_sb, devices_br, devices_pb, setDevices_to_sb, setDevices_to_br,
      setDevices_to_pb, List.map_append]
  · rw [key s.sb hd]
  · rw [key s.br hd]
  · rw [key s.pb hd]

end Sys2Proof.Machine
end

