-- ==== Sys2Proof/Laws/PerInstr.lean ====
section
/-! SUPPORT. Laws/PerInstr.lean: the family RoundTrip, one lemma per instruction: decoding the encoding of an
instruction gives it back, with every operand at every value. -/

namespace Sys2Proof.Laws.RoundTrip

/-- Decoding the record that encodes `i` gives `i`. -/
def Statement (i : Instr) : Prop := decode (encode i) = .ok i

theorem sbRead (n : Byte) (a d : Word) : Statement (.sbRead n a d) := decode_mkReq _ n a d
theorem sbWrite (n : Byte) (a d : Word) : Statement (.sbWrite n a d) := decode_mkReq _ n a d
theorem brRead (n : Byte) (a d : Word) : Statement (.brRead n a d) := decode_mkReq _ n a d
theorem brWrite (n : Byte) (a d : Word) : Statement (.brWrite n a d) := decode_mkReq _ n a d
theorem brCfgRead (n : Byte) (a d : Word) : Statement (.brCfgRead n a d) := decode_mkReq _ n a d
theorem brCfgWrite (n : Byte) (a d : Word) : Statement (.brCfgWrite n a d) := decode_mkReq _ n a d
theorem pbRead (n : Byte) (a d : Word) : Statement (.pbRead n a d) := decode_mkReq _ n a d
theorem pbWrite (n : Byte) (a d : Word) : Statement (.pbWrite n a d) := decode_mkReq _ n a d
theorem pbCfgRead (n : Byte) (a d : Word) : Statement (.pbCfgRead n a d) := decode_mkReq _ n a d
theorem pbCfgWrite (n : Byte) (a d : Word) : Statement (.pbCfgWrite n a d) := decode_mkReq _ n a d
theorem devRead (r : DevRef) (n : Byte) (a d : Word) : Statement (.devRead r n a d) := rfl
theorem devWrite (r : DevRef) (n : Byte) (a d : Word) : Statement (.devWrite r n a d) := rfl
theorem devCfgRead (r : DevRef) (n : Byte) (a d : Word) : Statement (.devCfgRead r n a d) := rfl
theorem devCfgWrite (r : DevRef) (n : Byte) (a d : Word) : Statement (.devCfgWrite r n a d) := rfl
theorem devIdentify (r : DevRef) : Statement (.devIdentify r) := rfl

end Sys2Proof.Laws.RoundTrip
end

