-- ==== Sys2Proof/Tests/Slice0.lean ====
section
/-! SUPPORT. Tests/Slice0.lean: the model against the vectors of 95_test_vectors.md, on its topology T0 and its fixture
MEM, and a witness for the hypotheses of every obligation. Every expected value is the spec file's. -/

namespace Sys2Proof.Tests

open Sys2Proof.Machine

/-! ### Topology T0 (95_test_vectors.md section 1.2) -/

/-- A buffer from its bytes at the listed offsets, zeros left out. -/
def image (f : Nat → Nat) (offsets : List Nat) : Memory :=
  offsets.filterMap fun i => if f i % 256 = 0 then none else some (i, BitVec.ofNat 8 (f i))

/-- `SEED_d[i] = i XOR tag_d`, at the offsets that the tests touch. -/
def seed (tag : Nat) : CfgSpace :=
  .pci (image (fun i => i ^^^ tag) [0, 1, 2, 3, 4, 5, 6, 7, 0xF8, 0xF9, 0xFA, 0xFB, 0xFC, 0xFD, 0xFE, 0xFF])

/-- `BR_CFG_INIT[i] = 0xFF - (i mod 256)`, at the offsets that the tests touch. -/
def bridgeImage : Memory :=
  image (fun i => 0xFF - i % 256) ([0, 1, 2, 3, 0x10, 0x11, 0x12, 0x13, 0xFFC, 0xFFD, 0xFFE, 0xFFF])

def mem (id : Nat) (name : String) (start stop : Word) (cfg : CfgSpace) : Device :=
  ⟨id, name, ⟨start, stop⟩, cfg, .memFixture []⟩

def devMA : Device := mem 0 "MA" 0x80000000 0x800000FF .mmio
def devMB : Device := mem 1 "MB" 0x80000080 0x8000017F .mmio
def devSH : Device := mem 2 "SH" 0xD0000800 0xD00008FF .mmio
def devSMC : Device := mem 3 "SMC" 0x200EA001000 0x200EA001100 (seed 0xA0)
def devCDROM : Device := mem 4 "CDROM" 0x200EA001200 0x200EA001230 (seed 0x10)
def devHDD : Device := mem 5 "HDD" 0x200EA001300 0x200EA001330 (seed 0x20)
def devXMA : Device := mem 6 "XMA" 0x200EA001800 0x200EA001C00 (seed 0x00)
def devSFC : Device := mem 7 "SFC" 0x200EA002000 0x200EA0020FF .mmio
def devEHCI0 : Device := mem 8 "EHCI0" 0x200EA003000 0x200EA0030FF (seed 0x40)
def devOHCI0 : Device := mem 9 "OHCI0" 0x200EA003100 0x200EA0031FF (seed 0x48)
def devFastEthernet : Device := mem 10 "FastEthernet" 0x40000000 0x400000FF (seed 0x70)

def t0Config (fwd : Bool) : Configuration where
  sb := [devMA, devMB, devSH]
  br := [devSMC, devCDROM, devHDD, devXMA, devSFC, devEHCI0, devOHCI0]
  pb := [devFastEthernet]
  brCfgInit := bridgeImage
  fwdCfgAtSb := fwd
  nIssuers := 2

/-- The bring-up state of T0. -/
def t0 : State := State.broughtUp (t0Config false)

/-- T0 with `FWD_CFG_AT_SB = true`. -/
def t0Fwd : State := State.broughtUp (t0Config true)

/-- The next state of an instruction, or a state that accepts nothing if it has none. -/
def after (i : Instr) (s : State) : State :=
  match exec i s with
  | .next t => t
  | .fault _ => State.beforeBringUp
  | .refused _ => State.beforeBringUp

/-- The byte of a device's configuration buffer. -/
def cfgByte (s : State) (r : DevRef) (k : Nat) : Option Byte :=
  match deviceAt? s r with
  | some d => match d.config with
    | .pci m => some (Memory.read m k)
    | .mmio => none
  | none => none

/-- The byte of a device's MEM array. -/
def memByte (s : State) (r : DevRef) (k : Nat) : Option Byte :=
  match deviceAt? s r with
  | some d => match d.data with
    | .memFixture m => some (Memory.read m k)
    | .param _ => none
  | none => none

/-- T0 is well-formed. -/
theorem test_T0_is_admitted : configurationOk (t0Config false) = true := by decide

theorem test_reset_memory_wf : Memory.wf State.reset.brCfg ∧ configurationOk Configuration.ref = true := by decide

/-! ### WellFormed: the byteCount check refuses -/

theorem test_illegal_counts_refused :
    (Instr.sbRead 3 0 0).wellFormed = false ∧ (Instr.pbCfgRead 16 0 0).wellFormed = false ∧
    (Instr.devRead ⟨.sb, 0⟩ 0 0 0).wellFormed = false ∧ (Instr.brWrite 9 0 0).wellFormed = false ∧
    (Instr.sbRead 8 0 0).wellFormed = true ∧ (Instr.devIdentify ⟨.sb, 0⟩).wellFormed = true := by decide

/-! ### Decode: the words of 95_test_vectors.md -/

theorem test_decode_sbRead : decodeTableWord 144 0x000400000200EA0013000000000000000000 =
    some (.sbRead 4 0x200EA001300 0) := by decide
theorem test_decode_sbWrite : decodeTableWord 144 0x0104000000001234567800000000DEADBEEF =
    some (.sbWrite 4 0x12345678 0xDEADBEEF) := by decide
theorem test_decode_brRead : decodeTableWord 144 0x040100000200EA001301FFFFFFFFFFFFFF00 =
    some (.brRead 1 0x200EA001301 0xFFFFFFFFFFFFFF00) := by decide
theorem test_decode_brWrite : decodeTableWord 144 0x050200000200EA002010000000000000BEEF =
    some (.brWrite 2 0x200EA002010 0xBEEF) := by decide
theorem test_decode_brCfgRead : decodeTableWord 144 0x060800000000D0000FFC0000000000000000 =
    some (.brCfgRead 8 0xD0000FFC 0) := by decide
theorem test_decode_brCfgWrite : decodeTableWord 144 0x070800000000D00000F80102030405060708 =
    some (.brCfgWrite 8 0xD00000F8 0x102030405060708) := by decide
theorem test_decode_pbRead : decodeTableWord 144 0x080400000000400000040000000000000033 =
    some (.pbRead 4 0x40000004 0x33) := by decide
theorem test_decode_pbWrite : decodeTableWord 144 0x090100000000400000FF000000000000ABCD =
    some (.pbWrite 1 0x400000FF 0xABCD) := by decide
theorem test_decode_pbCfgRead : decodeTableWord 144 0x0A0400000000D01380000000000000000077 =
    some (.pbCfgRead 4 0xD0138000 0x77) := by decide
theorem test_decode_pbCfgWrite : decodeTableWord 144 0x0B0400000000D0000000000000000000FFFF =
    some (.pbCfgWrite 4 0xD0000000 0xFFFF) := by decide
theorem test_decode_dev :
    decode (.dev ⟨0b000, ⟨.sb, 0⟩, 0x80000002, 2, 0⟩) = .ok (.devRead ⟨.sb, 0⟩ 2 0x80000002 0) ∧
    decode (.dev ⟨0b001, ⟨.sb, 0⟩, 0x80000000, 4, 0x11223344⟩) = .ok (.devWrite ⟨.sb, 0⟩ 4 0x80000000 0x11223344) ∧
    decode (.dev ⟨0b010, ⟨.br, 2⟩, 0xD01100F8, 8, 0⟩) = .ok (.devCfgRead ⟨.br, 2⟩ 8 0xD01100F8 0) ∧
    decode (.dev ⟨0b011, ⟨.br, 2⟩, 0xD0110000, 4, 0xDEADBEEF⟩) =
      .ok (.devCfgWrite ⟨.br, 2⟩ 4 0xD0110000 0xDEADBEEF) ∧
    decode (.dev ⟨0b100, ⟨.br, 2⟩, 0, 0, 0⟩) = .ok (.devIdentify ⟨.br, 2⟩) ∧
    decode (.dev ⟨0b101, ⟨.br, 2⟩, 0, 0, 0⟩) = .error (.dopNeverIssued 0b101) := by decide
/-- F1, F2, F3 and F8. -/
theorem test_decode_bad_headers :
    decodeTableWord 144 0x020400000000000000000000000000000000 = none ∧
    decodeTableWord 144 0x0C0400000000000000000000000000000000 = none ∧
    decodeTableWord 144 0x100400000000000000000000000000000000 = none ∧
    classify (.req 0xFF0000000000000000000000000000000000) = .badRequest := by decide
/-- F4 to F7. -/
theorem test_classify_bad_counts :
    classify (.req 0x000300000000800000000000000000000000) = .badByteCount ∧
    classify (.req 0x000000000000800000000000000000000000) = .badByteCount ∧
    classify (.req 0x000900000000800000000000000000000000) = .badByteCount ∧
    classify (.req 0x0A1000000000000000000000000000000000) = .badByteCount := by decide

/-! ### One transaction each: vectors of sections 2, 3 and 4 -/

/-- L1.2: MA and MB overlap; MA, registered first, is written and MB is not. -/
theorem test_sbWrite_overlap_L12 :
    (after (.sbWrite 4 0x80000080 0xA1A2A3A4) t0).response = some (.rsp .hitDevice 0xA1A2A3A4) ∧
    memByte (after (.sbWrite 4 0x80000080 0xA1A2A3A4) t0) ⟨.sb, 0⟩ 0x80 = some 0xA4 ∧
    memByte (after (.sbWrite 4 0x80000080 0xA1A2A3A4) t0) ⟨.sb, 1⟩ 0 = some 0 := by decide
/-- SB6: a write miss logs the byte-swapped data. -/
theorem test_sbWrite_miss_SB6 :
    (after (.sbWrite 4 0x1000 0xDEADBEEF) t0).response = some (.rsp .missSbUnmapped 0xDEADBEEF) ∧
    (after (.sbWrite 4 0x1000 0xDEADBEEF) t0).events =
      [.unmapped .sb .write 0x1000 (some 0xEFBEADDE00000000)] := by decide
/-- SB12, SB13: the upper end of `SBCFG` is inclusive. -/
theorem test_sbRead_window_end_SB12_SB13 :
    (after (.sbRead 1 0xD1000000 0) t0).response = some (.rsp .sbCfgWindow 0) ∧
    (after (.sbRead 1 0xD1000001 0) t0).response = some (.rsp .missSbUnmapped 0) := by decide
/-- SB8, SB2: forwarding reads `BR.cfg`; a 4-byte device read keeps slot bytes 4 to 7. -/
theorem test_sbRead_forward_SB8_SB2 :
    (after (.sbRead 4 0xD0000010 0x55) t0Fwd).response = some (.rsp .hitBridgeCfg 0xECEDEEEF) ∧
    (after (.sbRead 4 0x80000090 0xAAAAAAAAAAAAAAAA) t0).response = some (.rsp .hitDevice 0xAAAAAAAA00000000) := by
  decide
/-- BD2, BD3: the window's end is inclusive, the gap after it misses. -/
theorem test_brRead_BD2_BD3 :
    (after (.brRead 4 0x200EA001230 0) t0).response = some (.rsp .hitDevice 0) ∧
    (after (.brRead 4 0x200EA001231 0x99) t0).response = some (.rsp .missPciUnmapped 0xFFFFFFFFFFFFFFFF) := by decide
/-- BD5: the bridge compares 64 bits. -/
theorem test_brRead_BD5 : (after (.brRead 4 0xEA001300 0) t0).events = [.unmapped .br .read 0xEA001300 none] := by decide
/-- BD6: an MMIO device on the bridge list. -/
theorem test_brWrite_BD6 :
    memByte (after (.brWrite 2 0x200EA002010 0xBEEF) t0) ⟨.br, 4⟩ 0x10 = some 0xEF ∧
    memByte (after (.brWrite 2 0x200EA002010 0xBEEF) t0) ⟨.br, 4⟩ 0x11 = some 0xBE ∧
    memByte (after (.brWrite 2 0x200EA002010 0xBEEF) t0) ⟨.br, 4⟩ 0x12 = some 0 := by decide
/-- L1.8 step 4 and BD4: silent on an empty list, logged on a miss. -/
theorem test_brWrite_events_L18_BD4 :
    (after (.brWrite 4 0xEA000000 1) { t0 with br := [] }).events = [] ∧
    (after (.brWrite 4 0x200EA001400 1) t0).events = [.unmapped .br .write 0x200EA001400 none] := by decide
/-- BC22, BC11: upper bits set leave `BRSELF`, so number 0 is XMA; number 4 is EHCI0, registered first. -/
theorem test_brCfgRead_BC22_BC11 :
    (after (.brCfgRead 4 0x1D0000004 0) t0).response = some (.rsp .hitDevice 0x07060504) ∧
    (after (.brCfgRead 4 0xD0120000 0) t0).response = some (.rsp .hitDevice 0x43424140) := by decide
/-- BC8, BC9, BC5: the slot as sent, all-ones, and the span fault. -/
theorem test_brCfgRead_BC8_BC9_BC5 :
    (after (.brCfgRead 4 0xD0018000 0x1234) t0).response = some (.rsp .cfgUnknownNumber 0x1234) ∧
    (after (.brCfgRead 4 0xD0138000 0x1234) t0).response = some (.rsp .cfgNotAttached 0xFFFFFFFFFFFFFFFF) ∧
    (after (.brCfgRead 8 0xD0000FFC 0) t0).faulted =
      some ⟨.cfgBounds, ⟨.req 0x060800000000D0000FFC0000000000000000, some (.bridge, 0xFFC)⟩⟩ := by decide
/-- BC3, BC23: a write to `BR.cfg`, and one byte of HDD's buffer. -/
theorem test_brCfgWrite_BC3_BC23 :
    Memory.read (after (.brCfgWrite 2 0xD0000010 0xABCD) t0).brCfg 0x10 = 0xCD ∧
    Memory.read (after (.brCfgWrite 2 0xD0000010 0xABCD) t0).brCfg 0x11 = 0xAB ∧
    cfgByte (after (.brCfgWrite 1 0xD0110003 0x1FF) t0) ⟨.br, 2⟩ 3 = some 0xFF ∧
    cfgByte (after (.brCfgWrite 1 0xD0110003 0x1FF) t0) ⟨.br, 2⟩ 4 = some 0x24 := by decide
/-- F10: a span fault writes nothing. -/
theorem test_brCfgWrite_F10 :
    Memory.read (after (.brCfgWrite 4 0xD0000FFE 1) t0).brCfg 0xFFE = 0x01 ∧
    (after (.brCfgWrite 4 0xD0000FFE 1) t0).response = none := by decide
/-- PB1, PB6. -/
theorem test_pbRead_PB1_PB6 :
    (after (.pbRead 4 0x40000004 0x33) t0).response = some (.rsp .hitDevice 0) ∧
    (after (.pbRead 4 0x140000004 0x33) t0).response = some (.rsp .missPciUnmapped 0xFFFFFFFFFFFFFFFF) := by decide
/-- PB7, PB3. -/
theorem test_pbWrite_PB7_PB3 :
    memByte (after (.pbWrite 1 0x400000FF 0xABCD) t0) ⟨.pb, 0⟩ 0xFF = some 0xCD ∧
    (after (.pbWrite 4 0x40000100 0x33) t0).events = [.unmapped .pb .write 0x40000100 none] := by decide
/-- PB4. -/
theorem test_pbCfgRead_PB4 :
    (after (.pbCfgRead 4 0xD0138000 0x77) t0).response = some (.rsp .noopCfg 0x77) := by decide
/-- PB5. -/
theorem test_pbCfgWrite_PB5 :
    Memory.read (after (.pbCfgWrite 4 0xD0000000 0xFFFF) t0).brCfg 0 = 0xFF ∧
    (after (.pbCfgWrite 4 0xD0000000 0xFFFF) t0).response = some (.rsp .noopCfg 0xFFFF) := by decide
/-- DV5: bytes past the window read 0 under MEM. -/
theorem test_devRead_DV5 :
    (after (.devRead ⟨.sb, 0⟩ 4 0x800000FE 0xFFFFFFFFFFFFFFFF) t0).response =
      some (.devSlot 0xFFFFFFFF00000000) := by decide
/-- DV3. -/
theorem test_devWrite_DV3 :
    memByte (after (.devWrite ⟨.sb, 0⟩ 4 0x80000000 0x11223344) t0) ⟨.sb, 0⟩ 0 = some 0x44 ∧
    memByte (after (.devWrite ⟨.sb, 0⟩ 4 0x80000000 0x11223344) t0) ⟨.sb, 0⟩ 3 = some 0x11 := by decide
/-- DV6, DV7. -/
theorem test_devCfgRead_DV6_DV7 :
    (after (.devCfgRead ⟨.br, 2⟩ 8 0xD01100F8 0) t0).response = some (.devCfgSlot .hitDevice 0xDFDEDDDCDBDAD9D8) ∧
    ((after (.devCfgRead ⟨.br, 2⟩ 8 0xD01100F9 0) t0).faulted.map fun f => (f.reason, f.info.span)) =
      some (.cfgBounds, some (.device ⟨.br, 2⟩, 0xF9)) := by decide
/-- DV11. -/
theorem test_devCfgRead_DV11 :
    (after (.devCfgRead ⟨.br, 4⟩ 8 0xD01400FF 5) t0).response = some (.devCfgSlot .noopCfg 5) := by decide
/-- DV8, DV10. -/
theorem test_devCfgWrite_DV8_DV10 :
    cfgByte (after (.devCfgWrite ⟨.br, 2⟩ 4 0xD0110000 0xDEADBEEF) t0) ⟨.br, 2⟩ 0 = some 0xEF ∧
    (after (.devCfgWrite ⟨.br, 4⟩ 8 0xD0140000 1) t0).response = some (.devCfgDone .noopCfg) := by decide
/-- DV1, DV2. -/
theorem test_devIdentify_DV1_DV2 :
    (after (.devIdentify ⟨.br, 2⟩) t0).response = some (.identity "HDD" 0x200EA001300 0x200EA001330) ∧
    (after (.devIdentify ⟨.sb, 2⟩) t0).response = some (.identity "SH" 0xD0000800 0xD00008FF) := by decide
/-- F9: after a fault no request has a step. -/
theorem test_fault_is_sticky_F9 :
    exec (.sbRead 4 0x80000000 0) (after (.sbRead 3 0x80000000 0) t0) =
      .fault (.stuck ⟨.badByteCount, ⟨.req 0x000300000000800000000000000000000000, none⟩⟩) := rfl
/-- The first instruction after reset, as the host places it: SB19 on the reference topology. -/
theorem test_step_after_reset_SB19 :
    step (State.reset.withFetchWord 144 0x000400000000DFFF00000000000000000000) =
      .next { State.reset with
        events := [.unmapped .sb .read 0xDFFF0000 none], response := some (.rsp .missSbUnmapped 0) } := rfl
/-- R94: the example line, assembled and encoded; and the two lines that port S does not have. -/
theorem test_assemble_R94 :
    (assemble ⟨.sb, .read, 0x200EA001300, .four, none⟩).map encode =
      some (.req 0x000400000200EA0013000000000000000000) ∧
    assemble ⟨.sb, .cfgRead, 0, .four, none⟩ = none ∧ assemble ⟨.br, .write, 0, .four, none⟩ = none := by decide
/-- The examples of R91. -/
theorem test_cfgAddr_R91 :
    cfgAddr 0 2 0 = 0xD0010000 ∧ cfgAddr 1 2 0 = 0xD0110000 ∧ cfgAddr 0 7 0 = 0xD0038000 ∧
    cfgAddr 1 7 0 = 0xD0138000 ∧ cfgAddr 15 31 0xFFF = 0xD0FF8FFF := by decide
/-- Section 3.6: `0xD011_0104`. -/
theorem test_fields_36 :
    cfgDevice 0xD0110104 = 2 ∧ cfgBus 0xD0110104 = 1 ∧ cfgRegister 0xD0110104 = 0x104 ∧ devCfgOffset 0xD0110104 = 4 := by
  decide

/-! ### Witnesses: concrete states and operands that meet the hypotheses of each obligation, clause by clause at the
ends of the ranges. Obligations without hypotheses have none. -/

/-- A statement about the members of a list, checked member by member. -/
theorem forall_mem_of_all {p : Word → Prop} [DecidablePred p] {l : List Word}
    (h : (l.all fun a => decide (p a)) = true) : ∀ a ∈ l, p a := by simpa using h

theorem accepts_t0 : Accepts t0 := by decide
theorem accepts_t0Fwd : Accepts t0Fwd := by decide

/-- A device whose data path is OPEN, as all of the reference topology are. -/
def openHDD : Device := { devHDD with data := .param 0 }

/-- T0 with an OPEN HDD and an empty bridge image. -/
def t0Open : State := { t0 with br := [openHDD, devSFC], brCfg := [] }

/-- `PB.CFGREAD 0, 4` (R94), and a record with an illegal header. -/
def pbCfgReadWord : ReqWord := 0x0A0400000000000000000000000000000000
def badHeaderWord : ReqWord := 0xFF0000000000000000000000000000000000

/-- DEV.IDENTIFY of HDD, as a record. -/
def identifyHDD : DevCall := ⟨0b100, ⟨.br, 2⟩, 0, 0, 0⟩

/-- T0 with one request pending at issuer 1. -/
def t0Pending : State := { t0 with issuers := [[], [pbCfgReadWord]] }

/-- T0 with one call pending at the device port. -/
def t0Called : State := { t0 with deviceCalls := [identifyHDD] }

/-- A DEV record goes to the device port, and no issuer's queue holds it. -/
theorem test_step_of_device_call :
    step t0Called = .next { t0 with response := some (.identity "HDD" 0x200EA001300 0x200EA001330) } ∧
    (State.reset.withFetchWord 3 0b100).issuers = [[]] ∧
    (State.reset.withFetchWord 3 0b100).deviceCalls = [⟨0b100, ⟨.br, 0⟩, 0, 0, 0⟩] := ⟨rfl, rfl, rfl⟩

theorem witness_HeadersSpellOperationsOrRaiseBadRequest :
    (Accepts t0 ∧ ∀ h ∈ [(0x02 : Byte), 0x03, 0x0C, 0x0F, 0x10, 0xFF], h ∉ legalHeaders) ∧
    (⟨0b100, ⟨.br, 0⟩, 0, 0, 0⟩ : DevCall).dop.toNat ≤ 4 ∧ ¬ (⟨0b101, ⟨.br, 0⟩, 0, 0, 0⟩ : DevCall).dop.toNat ≤ 4 := by
  decide

theorem witness_EncodeOfDecodeIsTheRecord :
    decode (.req 0x000400000200EA0013000000000000000000) = .ok (.sbRead 4 0x200EA001300 0) ∧
    decode (.req 0x0B0400000000D0000000000000000000FFFF) = .ok (.pbCfgWrite 4 0xD0000000 0xFFFF) ∧
    (0b000 : BitVec 3) ≠ 0b100 ∧ decode (.dev ⟨0b000, ⟨.sb, 0⟩, 2, 2, 0⟩) = .ok (.devRead ⟨.sb, 0⟩ 2 2 0) ∧
    (0b011 : BitVec 3) ≠ 0b100 ∧ decode (.dev ⟨0b011, ⟨.sb, 0⟩, 2, 2, 0⟩) = .ok (.devCfgWrite ⟨.sb, 0⟩ 2 2 0) := by
  decide

theorem witness_EveryRequestIsOneOperationOrOneFault :
    Accepts t0 ∧ classify (.req 0x0B0400000000D0000000000000000000FFFF) =
      .operation (.pbCfgWrite 4 0xD0000000 0xFFFF) ∧
    classify (.req 0x0C0400000000000000000000000000000000) = .badRequest ∧
    classify (.req 0x0A1000000000000000000000000000000000) = .badByteCount := by decide

/-- IllegalByteCountRaisesBadByteCount and IllegalByteCountOfDeviceCallRaisesBadByteCount. -/
theorem witness_IllegalByteCount : Accepts t0 ∧ ∀ n ∈ [(0 : Byte), 3, 7, 9, 0xFF], n ≠ 1 ∧ n ≠ 2 ∧ n ≠ 4 ∧ n ≠ 8 := by
  decide

theorem witness_ModelFaultIsStickyAndChangesNothingElse :
    (∃ t, exec (.brCfgRead 8 0xD0000FFC 0) t0 = .next t ∧ t.faulted ≠ none) ∧
    (after (.brCfgRead 8 0xD0000FFC 0) t0).faulted =
      some ⟨.cfgBounds, ⟨.req 0x060800000000D0000FFC0000000000000000, some (.bridge, 0xFFC)⟩⟩ :=
  ⟨⟨_, rfl, by decide⟩, by decide⟩

theorem witness_AssemblyLinesSpellWellFormedRequests :
    assemble ⟨.pb, .cfgWrite, 0, .eight, some 1⟩ = some (.pbCfgWrite 8 0 1) := by decide

theorem witness_NoTransactionBeforeBringUp :
    State.beforeBringUp.ready = false ∧ State.beforeBringUp.faulted = none := by decide

/-- A granted request, legal and with a bad header; a granted call, legal and with `dop` 101 and 111; no grant, and grants
that name nobody; an idle block. -/
theorem witness_StepPerformsThePickedRequest :
    (Accepts t0Pending ∧ ({ t0Pending with grants := [.issuer 1] } : State).grants = .issuer 1 :: [] ∧
      t0Pending.issuers[1]? = some (pbCfgReadWord :: []) ∧ decode (.req pbCfgReadWord) = .ok (.pbCfgRead 4 0 0) ∧
      decode (.req badHeaderWord) = .error .badRequest) ∧
    (Accepts t0Called ∧ ({ t0Called with grants := [.devicePort] } : State).grants = .devicePort :: [] ∧
      t0Called.deviceCalls = identifyHDD :: [] ∧ decode (.dev identifyHDD) = .ok (.devIdentify ⟨.br, 2⟩) ∧
      ∀ q ∈ t0Called.issuers, q = []) ∧
    (decode (.dev ⟨0b101, ⟨.br, 2⟩, 0, 0, 0⟩) = .error (.dopNeverIssued 0b101) ∧
      decode (.dev ⟨0b111, ⟨.br, 2⟩, 0, 0, 0⟩) = .error (.dopNeverIssued 0b111) ∧
      5 ≤ (⟨0b101, ⟨.br, 2⟩, 0, 0, 0⟩ : DevCall).dop.toNat ∧ ¬ 5 ≤ (⟨0b100, ⟨.br, 2⟩, 0, 0, 0⟩ : DevCall).dop.toNat) ∧
    (t0Pending.grants.head? = none ∧ NamesNobody t0Pending (.issuer 0) ∧ NamesNobody t0Pending (.issuer 2) ∧
      NamesNobody t0Pending .devicePort ∧ t0Pending.issuers = List.replicate 1 [] ++ (pbCfgReadWord :: []) :: []) ∧
    (Accepts t0 ∧ (∀ q ∈ t0.issuers, q = []) ∧ t0.deviceCalls = []) :=
  ⟨by decide, by decide, by decide, ⟨rfl, fun _ h => by cases h; rfl, fun _ h => (by cases h), rfl, rfl⟩, by decide⟩

/-- StepKeepsEachIssuersOrder, StepKeepsTheInvariant, NoStepChangesTheTopology and IssuersSendRequestsAndSeeSlots. -/
theorem witness_Step : BlockInv t0Pending ∧ t0Pending.deviceCalls = [] ∧
    step t0Pending = .next { t0 with issuers := [[], []], response := some (.rsp .noopCfg 0) } :=
  ⟨⟨by decide, by decide, by decide, by decide⟩, rfl, rfl⟩

/-- A request; a response to a call at the device port. -/
theorem witness_IssuersSendRequestsAndSeeSlots :
    decode (.req pbCfgReadWord) = .ok (.pbCfgRead 4 0 0) ∧
    ∀ o v, Response.identity "HDD" 0x200EA001300 0x200EA001330 ≠ .rsp o v := ⟨by decide, nofun⟩

theorem witness_BringUpGivesTheConfiguredState :
    configurationOk (t0Config true) = true ∧
    configurationOk { t0Config true with sb := [mem 0 "MA" 2 1 .mmio] } = false ∧
    configurationOk { t0Config true with sb := [devMA, devMA] } = false ∧
    configurationOk { t0Config true with sb := [devMA, { devMA with id := 20 }] } = true := by decide

theorem witness_BringUpEstablishesTheInvariant : bringUp Configuration.ref = some State.reset := by decide

/-- The alias 0x1_8000_0010 of SB4, and the two ends of a window and of `BRSELF`. -/
theorem witness_SystemBusComparesThirtyTwoBits :
    (0x180000010 : Word).toNat % 2 ^ 32 = (0x80000010 : Word).toNat % 2 ^ 32 ∧
    sbRoute t0.sb 0x180000010 = .direct 0 devMA ∧ dataRoute t0.br 0x200EA001300 = .dev 2 devHDD ∧
    dataRoute t0.br 0x200EA001330 = .dev 2 devHDD ∧ cfgRoute t0.br 0xD0000000 = .self 0 ∧
    cfgRoute t0.br 0xD0000FFF = .self 0xFFF := ⟨by decide, rfl, rfl, rfl, rfl, rfl⟩

/-- Both ends of MB's own part: no earlier device answers. And the disjoint windows of MA and SH alone. -/
theorem witness_DirectDeviceAnswersItsWindow :
    (Accepts t0 ∧ t0.sb[1]? = some devMB ∧
      (∀ a ∈ [(0x80000100 : Word), 0x8000017F, 0x18000017F], (devMB.window.start ≤ low32 a ∧ low32 a ≤ devMB.window.stop) ∧
        t0.sb[0]? = some devMA ∧ ¬ Answers (low32 a) devMA)) ∧
    (∀ (j k : Nat) (e f : Device), j ≠ k → [devMA, devSH][j]? = some e → [devMA, devSH][k]? = some f →
      ∀ a : Word, ¬ (Answers a e ∧ Answers a f)) := by
  refine ⟨⟨by decide, by decide, by refine forall_mem_of_all ?_; decide⟩, ?_⟩
  · have key : ∀ a : Word, Answers a devMA → Answers a devSH → False := fun a h h' =>
      absurd (BitVec.le_trans h'.1 h.2) (by decide)
    intro j k e f hjk hj hk a ⟨h1, h2⟩
    match j, k with
    | 0, 0 => exact hjk rfl
    | 0, 1 => cases hj; cases hk; exact key a h1 h2
    | 1, 0 => cases hj; cases hk; exact key a h2 h1
    | 1, 1 => exact hjk rfl
    | 0, k + 2 => cases hk
    | 1, k + 2 => cases hk
    | j + 2, _ => cases hj

theorem witness_SelfWindowOffsetIsDistanceFromBase :
    ((0xD0000000 : Word) ≤ 0xD0000000 ∧ (0xD0000000 : Word) ≤ 0xD0000FFF) ∧
    ((0xD0000000 : Word) ≤ 0xD0000FFF ∧ (0xD0000FFF : Word) ≤ 0xD0000FFF) := by decide

/-- The last byte of a slot and a canonical buffer. -/
theorem witness_SlotAndBufferMoveByteForByte : 7 < 8 ∧ Memory.wf bridgeImage := by decide

theorem witness_ByteSwapReversesTheBytes : 0 < 8 ∧ 7 < 8 := by decide

theorem witness_BufferReadAfterWrite : Memory.wf bridgeImage ∧ Memory.within bridgeImage 4096 ∧ 4095 < 4096 := by decide

/-- Equal reads at every offset: the image and the image with a byte written back. -/
theorem witness_EqualBuffersAreEqualData :
    Memory.wf [(1, 0xFE)] ∧ Memory.wf (Memory.write (Memory.write [(1, 0xFE)] 0 0xFF) 0 0) ∧
    ∀ k, Memory.read [(1, 0xFE)] k = Memory.read (Memory.write (Memory.write [(1, 0xFE)] 0 0xFF) 0 0) k :=
  ⟨by decide, by decide, fun _ => rfl⟩

/-- SbReadFollowsItsRoute and SbWriteFollowsItsRoute: a hit on the second device; both ends of `SBCFG`, unforwarded and
forwarded; both ends of `PCIWIN`; and a miss on each side of the two windows. -/
theorem witness_SbFollowsItsRoute :
    Accepts t0 ∧ Accepts t0Fwd ∧ FirstAt (Answers (low32 0x8000017F)) t0.sb 1 devMB ∧
    FirstAt (Answers (low32 0x8000017F)) t0Fwd.sb 1 devMB ∧ t0.fwdCfgAtSb = false ∧ t0Fwd.fwdCfgAtSb = true ∧
    (∀ a ∈ [(0xD0000000 : Word), 0xD1000000], (∀ d ∈ t0.sb, ¬ Answers (low32 a) d) ∧
      (∀ d ∈ t0Fwd.sb, ¬ Answers (low32 a) d) ∧ 0xD0000000 ≤ low32 a ∧ low32 a ≤ 0xD1000000) ∧
    (∀ a ∈ [(0xEA000000 : Word), 0xEA010000, 0x200EA001300], (∀ d ∈ t0.sb, ¬ Answers (low32 a) d) ∧
      0xEA000000 ≤ low32 a ∧ low32 a ≤ 0xEA010000) ∧
    (∀ a ∈ [(0xCFFFFFFF : Word), 0xD1000001, 0xE9FFFFFF, 0xEA010001], (∀ d ∈ t0.sb, ¬ Answers (low32 a) d) ∧
      ¬ (0xD0000000 ≤ low32 a ∧ low32 a ≤ 0xD1000000) ∧ ¬ (0xEA000000 ≤ low32 a ∧ low32 a ≤ 0xEA010000)) :=
  ⟨by decide, by decide, select_some.1 rfl, select_some.1 rfl, rfl, rfl, by refine forall_mem_of_all ?_; decide,
    by refine forall_mem_of_all ?_; decide,
    by refine forall_mem_of_all ?_; decide⟩

/-- BrReadFollowsItsRoute and BrWriteFollowsItsRoute: an empty list, both ends of HDD's window, and one past it. -/
theorem witness_BrFollowsItsRoute :
    (Accepts { t0 with br := [] } ∧ ({ t0 with br := [] } : State).br = []) ∧
    (Accepts t0 ∧ FirstAt (Answers 0x200EA001300) t0.br 2 devHDD ∧ FirstAt (Answers 0x200EA001330) t0.br 2 devHDD) ∧
    (t0.br ≠ [] ∧ (∀ d ∈ t0.br, ¬ Answers 0x200EA001331 d) ∧ ∀ d ∈ t0.br, ¬ Answers 0xEA001300 d) :=
  ⟨by decide, ⟨by decide, select_some.1 rfl, select_some.1 rfl⟩, by decide, by decide, by decide⟩

/-- BrCfgReadFollowsItsRoute and BrCfgWriteFollowsItsRoute: both sides of the span check at both ends of `BRSELF`, and,
outside it, an unknown number, an unattached one, and both sides of the span check of a PCI device and an MMIO one. -/
theorem witness_BrCfgFollowsItsRoute :
    Accepts t0 ∧ Memory.wf t0.brCfg ∧
    ((0xD0000000 : Word) ≤ 0xD0000FFC ∧ (0xD0000FFC : Word) ≤ 0xD0000FFF ∧
      (0xD0000FFC : Word).toNat - 0xD0000000 + bytes .four ≤ 4096 ∧
      (0xD0000FFC : Word).toNat - 0xD0000000 + bytes .eight > 4096) ∧
    (∀ a ∈ [(0xD0018000 : Word), 0xD0138000, 0xD01100FC, 0xD0140000, 0xD0001000, 0x1D0000010],
      ¬ (0xD0000000 ≤ a ∧ a ≤ 0xD0000FFF)) ∧
    devNames (cfgDevice 0xD0018000) = [] ∧
    (devNames (cfgDevice 0xD0138000) ≠ [] ∧ ∀ d ∈ t0.br, d.name ∉ devNames (cfgDevice 0xD0138000)) ∧
    (FirstAt (fun e => e.name ∈ devNames (cfgDevice 0xD01100FC)) t0.br 2 devHDD ∧
      (∃ m, devHDD.config = .pci m ∧ Memory.wf m) ∧ (0xD01100FC : Word).toNat % 256 + bytes .four ≤ 256 ∧
      (0xD01100FC : Word).toNat % 256 + bytes .eight > 256) ∧
    (FirstAt (fun e => e.name ∈ devNames (cfgDevice 0xD0140000)) t0.br 4 devSFC ∧ devSFC.config = .mmio) :=
  ⟨by decide, by decide, by decide, by refine forall_mem_of_all ?_; decide, by decide, by decide,
    ⟨nameMatch_some.1 rfl, ⟨_, rfl, by decide⟩, by decide, by decide⟩, nameMatch_some.1 rfl, rfl⟩

theorem witness_BridgeConfigWriteThenRead :
    Accepts t0 ∧ Memory.wf t0.brCfg ∧ (0xD0000000 : Word) ≤ 0xD0000FF8 ∧ (0xD0000FF8 : Word) ≤ 0xD0000FFF ∧
    (0xD0000FF8 : Word).toNat - 0xD0000000 + bytes .eight ≤ 4096 := by decide

/-- L1.6 step 7: another bus and another register, the same device and offset. -/
theorem witness_DeviceConfigWriteThenReadAtAlias :
    Accepts t0 ∧ ¬ ((0xD0000000 : Word) ≤ 0xD0008030 ∧ (0xD0008030 : Word) ≤ 0xD0000FFF) ∧
    ¬ ((0xD0000000 : Word) ≤ 0xD0108130 ∧ (0xD0108130 : Word) ≤ 0xD0000FFF) ∧
    cfgDevice 0xD0108130 = cfgDevice 0xD0008030 ∧ (0xD0108130 : Word).toNat % 256 = (0xD0008030 : Word).toNat % 256 ∧
    FirstAt (fun e => e.name ∈ devNames (cfgDevice 0xD0008030)) t0.br 1 devCDROM ∧
    (∃ m, devCDROM.config = .pci m ∧ Memory.wf m) ∧ (0xD0008030 : Word).toNat % 256 + bytes .four ≤ 256 :=
  ⟨by decide, by decide, by decide, by decide, by decide, nameMatch_some.1 rfl, ⟨_, rfl, by decide⟩, by decide⟩

/-- PbReadFollowsItsRoute and PbWriteFollowsItsRoute. -/
theorem witness_PbFollowsItsRoute :
    (Accepts { t0 with pb := [] } ∧ ({ t0 with pb := [] } : State).pb = []) ∧
    (Accepts t0 ∧ FirstAt (Answers 0x40000000) t0.pb 0 devFastEthernet ∧
      FirstAt (Answers 0x400000FF) t0.pb 0 devFastEthernet) ∧
    (t0.pb ≠ [] ∧ (∀ d ∈ t0.pb, ¬ Answers 0x40000100 d) ∧ ∀ d ∈ t0.pb, ¬ Answers 0x140000004 d) :=
  ⟨by decide, ⟨by decide, select_some.1 rfl, select_some.1 rfl⟩, by decide, by decide, by decide⟩

theorem witness_PbConfigurationDoesNothing : Accepts t0 := accepts_t0

/-- DevReadIsTheDevicesChoice and DevWriteIsTheDevicesChoice, on an OPEN device and on one with the MEM
fixture. -/
theorem witness_DevDataIsTheDevicesChoice :
    Accepts t0Open ∧ deviceAt? t0Open ⟨.br, 0⟩ = some openHDD ∧ openHDD.data = .param 0 ∧
    Accepts t0 ∧ deviceAt? t0 ⟨.sb, 0⟩ = some devMA := by decide

/-- SB4: the alias of MA's offset 0x10 above 4 GiB, with a byte there, at both ends of the slot. -/
theorem witness_MemFixtureReadsAndWritesItsBytes :
    devMA.data = .memFixture [] ∧ Memory.wf [] ∧ ({ devMA with data := .memFixture [(0x10, 0x5A)] } : Device).data =
      .memFixture [(0x10, 0x5A)] ∧ Memory.wf [(0x10, 0x5A)] ∧ 0 < 8 ∧ 7 < 8 := by decide

/-- SB4 with a byte at offset 0x10 of MA: the system bus's 32 bits, where 64 would give an offset past the window. -/
theorem test_sbRead_alias_SB4 :
    (after (.sbRead 4 0x180000010 0) { t0 with sb := [{ devMA with data := .memFixture [(0x10, 0x5A)] }] }).response =
      some (.rsp .hitDevice 0x5A) := by decide

/-- Without a grant: an ungranted bad header, and an ungranted call with `dop` 101. -/
theorem test_step_without_grant :
    step { t0 with issuers := [[], [badHeaderWord]] } = .next { t0 with
      issuers := [[], []], faulted := some ⟨.badRequest, ⟨.req badHeaderWord, none⟩⟩, response := none } ∧
    step { t0 with deviceCalls := [⟨0b101, ⟨.br, 2⟩, 0, 0, 0⟩] } = .refused (.dopNeverIssued 0b101) := ⟨rfl, rfl⟩

/-- DevCfgReadReturnsBufferBytes and DevCfgWriteStoresTheLowBytes: DV6 and DV7, the two sides of the span check. -/
theorem witness_DevCfg :
    Accepts t0 ∧ deviceAt? t0 ⟨.br, 2⟩ = some devHDD ∧ (∃ m, devHDD.config = .pci m ∧ Memory.wf m) ∧
    (0xD01100F8 : Word).toNat % 256 + bytes .eight ≤ 256 ∧ (0xD01100F9 : Word).toNat % 256 + bytes .eight > 256 :=
  ⟨by decide, by decide, ⟨_, rfl, by decide⟩, by decide, by decide⟩

theorem witness_MmioConfigurationDoesNothing :
    Accepts t0 ∧ deviceAt? t0 ⟨.br, 4⟩ = some devSFC ∧ devSFC.config = .mmio := by decide

theorem witness_DevIdentifyReturnsTheDescriptor :
    Accepts t0 ∧ deviceAt? t0 ⟨.br, 2⟩ = some devHDD ∧ deviceAt? t0Pending ⟨.br, 2⟩ = some devHDD ∧
    step t0Pending = .next { t0 with issuers := [[], []], response := some (.rsp .noopCfg 0) } ∧
    Accepts { t0 with issuers := [[], []], response := some (.rsp .noopCfg 0) } :=
  ⟨by decide, by decide, by decide, rfl, by decide⟩

theorem witness_DeviceCallToNoDeviceStops : Accepts t0 ∧ deviceAt? t0 ⟨.pb, 1⟩ = none := by decide

/-- The four targets: HDD's private state, by the bridge and by a call; SMC's buffer; the bridge's; and nothing. -/
theorem witness_TransactionChangesAtMostOneDevice :
    (∃ t, exec (.sbWrite 4 0xEA000000 1) t0 = .next t ∧ target (.sbWrite 4 0xEA000000 1) t0 = .nothing) ∧
    (∃ t, exec (.brWrite 4 0x200EA001304 0x11223344) t0 = .next t ∧ deviceAt? t ⟨.br, 2⟩ ≠ deviceAt? t0 ⟨.br, 2⟩ ∧
      target (.brWrite 4 0x200EA001304 0x11223344) t0 = .data ⟨.br, 2⟩ ∧ deviceAt? t0 ⟨.br, 2⟩ = some devHDD) ∧
    (∃ t, exec (.devWrite ⟨.br, 2⟩ 4 0x200EA001304 1) t0 = .next t ∧
      target (.devWrite ⟨.br, 2⟩ 4 0x200EA001304 1) t0 = .data ⟨.br, 2⟩) ∧
    (∃ t, exec (.brCfgWrite 2 0xD0050000 0xABCD) t0 = .next t ∧ deviceAt? t ⟨.br, 0⟩ ≠ deviceAt? t0 ⟨.br, 0⟩ ∧
      target (.brCfgWrite 2 0xD0050000 0xABCD) t0 = .config ⟨.br, 0⟩ ∧ deviceAt? t0 ⟨.br, 0⟩ = some devSMC) ∧
    ∃ t, exec (.sbWrite 2 0xD0000010 0xABCD) t0Fwd = .next t ∧ t.brCfg ≠ t0Fwd.brCfg ∧
      target (.sbWrite 2 0xD0000010 0xABCD) t0Fwd = .bridge :=
  ⟨⟨_, rfl, by decide⟩, ⟨_, rfl, by decide⟩, ⟨_, rfl, by decide⟩, ⟨_, rfl, by decide⟩, _, rfl, by decide⟩

/-- A write miss, and a read miss on each of the sentinels: 0, all-ones, and the slot as sent. -/
theorem witness_MissReturnsItsSentinelAndChangesNoState :
    (∃ t, exec (.sbWrite 4 0x12345678 0xDEADBEEF) t0 = .next t ∧
      t.response = some (.rsp .missSbUnmapped 0xDEADBEEF) ∧ outcomeClass .missSbUnmapped ≠ none) ∧
    (∃ t, exec (.sbRead 4 0xD0000010 0x55) t0 = .next t ∧ t.response = some (.rsp .sbCfgWindow 0)) ∧
    (∃ t, exec (.pbRead 4 0x40000100 0x33) t0 = .next t ∧
      t.response = some (.rsp .missPciUnmapped 0xFFFFFFFFFFFFFFFF)) ∧
    ∃ t, exec (.brCfgRead 4 0xD0018000 0x1234) t0 = .next t ∧ t.response = some (.rsp .cfgUnknownNumber 0x1234) :=
  ⟨⟨_, rfl, by decide, by decide⟩, ⟨_, rfl, by decide⟩, ⟨_, rfl, by decide⟩, _, rfl, by decide⟩

theorem witness_ConfigReadChangesNoStateAndRepeats :
    isCfgRead (.brCfgRead 4 0xD0110000 0) = true ∧
    ∃ t, exec (.brCfgRead 4 0xD0110000 0) t0 = .next t ∧ t.faulted = none :=
  ⟨rfl, _, rfl, by decide⟩

/-- BC23: data 0x1FF and 0xFF agree in their low byte. -/
theorem witness_WritesIgnoreHighDataBytes :
    (∀ i < bytes .one, slotByte 0x1FF i = slotByte 0xFF i) ∧
    ∃ t, exec (.brCfgWrite (countField .one) 0xD0110003 0x1FF) t0 = .next t :=
  ⟨by decide, _, rfl⟩

theorem witness_TransactionEmitsAtMostOneEvent :
    (∃ t, exec (.sbRead 4 0x12345678 0) t0 = .next t ∧ t.events ≠ t0.events) ∧
    ∃ t, exec (.pbCfgRead 4 0 9) t0 = .next t ∧ t.response = some (.rsp .noopCfg 9) ∧ outcomeClass .noopCfg = none :=
  ⟨⟨_, rfl, by decide⟩, _, rfl, rfl, rfl⟩

theorem witness_PortsSAndBDoNotSeePortQ :
    isPortQ (.sbRead 4 0x40000004 0) = false ∧ isDevCall (.sbRead 4 0x40000004 0) = false ∧
    ∃ t, exec (.sbRead 4 0x40000004 0) t0 = .next t :=
  ⟨rfl, rfl, _, rfl⟩

theorem witness_PortQSeesOnlyItsOwnList : isPortQ (.pbCfgWrite 4 0xD0000000 0xFFFF) = true := rfl

theorem witness_UpstreamTransactionsAlwaysComplete :
    Accepts t0 ∧ isDevCall (.sbRead 8 0 0) = false ∧ (Instr.sbRead 8 0 0).wellFormed = true := by decide

end Sys2Proof.Tests
end

section
/-! Buffers and slots, the scope's data (00_scope.md R8, R9): a canonical buffer is determined by what it reads, and the
obligations about slots and buffers. -/

namespace Sys2Proof.Machine

@[simp] theorem Memory.read_cons_self (c : Host.Cell) (m : Memory) : Memory.read (c :: m) c.1 = c.2 := if_pos rfl

theorem Memory.read_cons_of_ne {c : Host.Cell} {k : Nat} (h : c.1 ≠ k) (m : Memory) :
    Memory.read (c :: m) k = Memory.read m k := if_neg h

/-- Of two canonical buffers that read the same, neither begins before the other: below its first offset a buffer reads
as unlisted, and the other's first cell does not. -/
theorem Memory.head_le_of_read_eq {c d : Host.Cell} {m m' : Memory} (hc : Memory.wf (c :: m)) (hd : Memory.wf (d :: m'))
    (h : ∀ k, Memory.read (c :: m) k = Memory.read (d :: m') k) : d.1 ≤ c.1 := by
  obtain ⟨-, hne, -⟩ := Memory.wf_cons.1 hc
  obtain ⟨hlt, -, -⟩ := Memory.wf_cons.1 hd
  by_contra! hcd
  have hbelow : Memory.read (d :: m') c.1 = unlistedByte :=
    Memory.read_of_lt (List.forall_mem_cons.2 ⟨hcd, fun x hx => hcd.trans (hlt x hx)⟩)
  exact hne (by rw [← hbelow, ← h, Memory.read_cons_self])

/-- Taking the first cell off two canonical buffers that begin with it keeps them reading the same. -/
theorem Memory.read_tail_eq {c : Host.Cell} {m m' : Memory} (hm : Memory.wf (c :: m)) (hm' : Memory.wf (c :: m'))
    (h : ∀ k, Memory.read (c :: m) k = Memory.read (c :: m') k) (k : Nat) : Memory.read m k = Memory.read m' k := by
  by_cases hk : c.1 = k
  · subst hk
    rw [Memory.read_of_lt (Memory.wf_cons.1 hm).1, Memory.read_of_lt (Memory.wf_cons.1 hm').1]
  · simpa only [Memory.read_cons_of_ne hk] using h k

/-- A canonical buffer that lists an offset does not read as the empty one. -/
theorem Memory.exists_read_ne_of_cons {c : Host.Cell} {m : Memory} (hm : Memory.wf (c :: m)) :
    ∃ k, Memory.read (c :: m) k ≠ Memory.read [] k :=
  ⟨c.1, by rw [Memory.read_cons_self]; exact (Memory.wf_cons.1 hm).2.1⟩

/-- Canonical buffers are extensional (log entry 3). -/
theorem Memory.eq_of_read_eq {m m' : Memory} (hm : Memory.wf m) (hm' : Memory.wf m')
    (h : ∀ k, Memory.read m k = Memory.read m' k) : m = m' := by
  induction m generalizing m' with
  | nil =>
    cases m' with
    | nil => rfl
    | cons d m' =>
      obtain ⟨k, hk⟩ := Memory.exists_read_ne_of_cons hm'
      exact absurd (h k).symm hk
  | cons c m ih =>
    cases m' with
    | nil =>
      obtain ⟨k, hk⟩ := Memory.exists_read_ne_of_cons hm
      exact absurd (h k) hk
    | cons d m' =>
      have hoff : c.1 = d.1 :=
        le_antisymm (Memory.head_le_of_read_eq hm' hm fun k => (h k).symm) (Memory.head_le_of_read_eq hm hm' h)
      have hbyte : c.2 = d.2 := by rw [← Memory.read_cons_self c m, h, hoff, Memory.read_cons_self]
      obtain rfl : c = d := Prod.ext hoff hbyte
      have htail := ih (Memory.wf_cons.1 hm).2.2 (Memory.wf_cons.1 hm').2.2 (Memory.read_tail_eq hm hm' h)
      rw [htail]

/-- `SlotByte` as a number (R9). -/
theorem slotByte_toNat (s : Word) (i : Nat) : (slotByte s i).toNat = s.toNat / 2 ^ (8 * i) % 256 := by
  rw [slotByte, BitVec.extractLsb'_toNat, Nat.shiftRight_eq_div_pow]

/-- Settles O28: canonical buffers are extensional, by induction on the cells. -/
theorem equalBuffersAreEqualData : Obligations.EqualBuffersAreEqualData :=
  fun _ _ => Memory.eq_of_read_eq

/-- Settles O26, one law of slots and buffers for each clause. -/
theorem slotAndBufferMoveByteForByte : Obligations.SlotAndBufferMoveByteForByte :=
  ⟨fun s i _ => slotByte_toNat s i,
   fun s i _ b hj => slotByte_slotPut s i b hj,
   fun s buf off n _ hj => slotByte_copyToSlot s buf off n hj,
   fun s _ off n j hm => copyFromSlot_read hm off s n j⟩

/-- Settles O27: what a write keeps of the buffer's form and size, and read after write. -/
theorem bufferReadAfterWrite : Obligations.BufferReadAfterWrite :=
  fun _ k _ b hm hsize hk => ⟨Memory.wf_write hm k b, Memory.within_write hsize hk b, Memory.read_write hm k b⟩

end Sys2Proof.Machine
end

section
/-! Bring-up (70_reset_and_hazards.md R230, R231): which configurations are admitted, what bring-up gives, and that the
invariant holds of it; the reset state as the bring-up of the reference topology. -/

namespace Sys2Proof.Machine

/-- The four conditions of an admitted configuration, one by one (R24, R28, R29, R212). -/
theorem configurationOk_iff (c : Configuration) : configurationOk c = true ↔
    (∀ d ∈ c.sb ++ c.br ++ c.pb, deviceOk d = true) ∧ ((c.sb ++ c.br ++ c.pb).map (·.id)).Nodup ∧
      imageOk c.brCfgInit brCfgSize ∧ 1 ≤ c.nIssuers := by
  simp only [configurationOk, Bool.and_eq_true, List.all_eq_true, decide_eq_true_eq, and_assoc]

/-- The six steps of R231 together give the values of R36. -/
theorem bringUp_eq (c : Configuration) :
    bringUp c = if configurationOk c then some (State.broughtUp c) else none := rfl

theorem bringUp_of_ok {c : Configuration} (h : configurationOk c = true) : bringUp c = some (State.broughtUp c) := by
  rw [bringUp_eq, if_pos h]

theorem bringUp_eq_some {c : Configuration} {s : State} :
    bringUp c = some s ↔ configurationOk c = true ∧ State.broughtUp c = s := by
  rw [bringUp_eq, Option.ite_none_right_eq_some, Option.some.injEq]

/-- The conditions of an admitted configuration are those of the invariant, of the block it becomes. -/
theorem blockInv_broughtUp {c : Configuration} (h : configurationOk c = true) : BlockInv (State.broughtUp c) := by
  obtain ⟨hdevices, hids, hbrCfg, hissuers⟩ := (configurationOk_iff c).1 h
  exact ⟨hdevices, hids, hbrCfg, by simpa [State.broughtUp] using hissuers⟩

/-- The reference topology REF is well formed (R23, R24). -/
theorem configurationOk_ref : configurationOk Configuration.ref = true := by decide

/-- Settles O13: the checks of R24 device by device, by `deviceOk_iff`. -/
theorem configurationsAdmittedAreTheWellFormedOnes : Obligations.ConfigurationsAdmittedAreTheWellFormedOnes :=
  fun c => (configurationOk_iff c).trans (and_congr_left' (forall₂_congr fun d _ => deviceOk_iff d))

/-- Settles O49. -/
theorem bringUpEstablishesTheInvariant : Obligations.BringUpEstablishesTheInvariant := by
  intro c s h
  obtain ⟨hok, rfl⟩ := bringUp_eq_some.1 h
  exact blockInv_broughtUp hok

/-- Settles O48: REF is an admitted configuration. -/
theorem invariantHoldsAtReset : Obligations.InvariantHoldsAtReset :=
  blockInv_broughtUp configurationOk_ref

/-- Settles O14: REF is admitted, and the values of the reset state are read off it. -/
theorem resetIsBringUpOfTheReferenceTopology : Obligations.ResetIsBringUpOfTheReferenceTopology :=
  ⟨bringUp_of_ok configurationOk_ref, ⟨rfl, rfl⟩, rfl, rfl, rfl, rfl, fun _ => rfl, by decide⟩

end Sys2Proof.Machine
end

section
/-! What every step keeps: one principle for a property of the state that the arbiter, the model fault and the effect of
a transaction each keep; with it, the topology (R25) and the invariant. -/

namespace Sys2Proof.Machine

/-- A property that holds of `s`, that taking a record off what is pending keeps, and that neither a model fault nor the
effect of a completed transaction loses, holds after a step of `s`. -/
theorem step_keeps {P : State → Prop} {s t : State} (h : step s = .next t) (hs : P s)
    (htake : ∀ r u, arbitrate s = some (r, u) → P u)
    (hfault : ∀ u rn inf, P u → P (raiseFault u rn inf))
    (heffect : ∀ u g o v resp, P u → Effect u g o v → P { v with response := some resp }) : P t := by
  have hstep : StepCases s (.next t) := h ▸ step_cases s
  generalize hx : (Host.Outcome.next t : Result) = x at hstep
  cases hstep with
  | runs harb _ =>
    have hu := htake _ _ harb
    exact exec_keeps hx.symm (fun rn inf => hfault _ rn inf hu) fun o v resp => heffect _ _ o v resp hu
  | badRequest harb _ => cases hx; exact hfault _ _ _ (htake _ _ harb)
  | idle _ => cases hx; exact hs
  | refuses _ => cases hx
  | stops _ => cases hx

/-! ### The topology -/

theorem SameTopology.refl (s : State) : SameTopology s s := ⟨rfl, rfl, rfl, rfl, rfl⟩

theorem SameTopology.trans {s t u : State} (h : SameTopology s t) (h' : SameTopology t u) : SameTopology s u :=
  ⟨h'.sb.trans h.sb, h'.br.trans h.br, h'.pb.trans h.pb, h'.fwd.trans h.fwd, h'.ready.trans h.ready⟩

theorem sameTopology_raiseFault (s : State) (rn : FaultReason) (inf : FaultInfo) :
    SameTopology s (raiseFault s rn inf) := ⟨rfl, rfl, rfl, rfl, rfl⟩

/-- The arbiter touches only what is pending and the grants. -/
theorem sameTopology_arbitrate {s t : State} {r : PortRecord} (h : arbitrate s = some (r, t)) : SameTopology s t := by
  rw [(arbitrate_keeps h).1]
  exact ⟨rfl, rfl, rfl, rfl, rfl⟩

/-- What a transaction replaces of a device, the state of its data path or the bytes of its buffer, is no part of
the descriptor (R25). -/
theorem Effect.sameTopology {s t : State} {g : Target} {o : OutcomeTag} (h : Effect s g o t) : SameTopology s t := by
  cases h with
  | same => exact .refl s
  | event => exact ⟨rfl, rfl, rfl, rfl, rfl⟩
  | @data r d p _ hd _ =>
    obtain ⟨hsb, hbr, hpb, hfwd, hready⟩ := sameTopology_putDevice (e := { d with data := p }) hd rfl
    exact ⟨hsb, hbr, hpb, hfwd, hready⟩
  | devCfg v _ hd hpci _ => exact sameTopology_putDevice hd (by simp [descriptorOf, kindOf, hpci])
  | brCfg => exact ⟨rfl, rfl, rfl, rfl, rfl⟩

/-- Settles O51. -/
theorem noStepChangesTheTopology : Obligations.NoStepChangesTheTopology := by
  intro s t h
  refine step_keeps (P := SameTopology s) h (.refl s) (fun _ _ => sameTopology_arbitrate)
    (fun u rn inf hu => hu.trans (sameTopology_raiseFault u rn inf)) fun u g o v resp hu he => ?_
  obtain ⟨hsb, hbr, hpb, hfwd, hready⟩ := hu.trans he.sameTopology
  exact ⟨hsb, hbr, hpb, hfwd, hready⟩

/-! ### The invariant -/

/-- The invariant reads the three lists, the bridge's buffer and the number of issuers, and nothing else. -/
theorem BlockInv.congr {s t : State} (h : BlockInv s) (hdevices : allDevices t = allDevices s)
    (hbrCfg : t.brCfg = s.brCfg) (hissuers : t.issuers.length = s.issuers.length) : BlockInv t :=
  ⟨hdevices ▸ h.devicesOk, hdevices ▸ h.idsNodup, hbrCfg ▸ h.brCfgOk, hissuers ▸ h.hasIssuer⟩

theorem BlockInv.of_arbitrate {s t : State} {r : PortRecord} (h : BlockInv s) (ha : arbitrate s = some (r, t)) :
    BlockInv t := by
  obtain ⟨hkeeps, hlength⟩ := arbitrate_keeps ha
  exact h.congr (by rw [hkeeps]; rfl) (by rw [hkeeps]) hlength

/-- A device may be replaced by one with its number that is as R24 and R28 admit it. -/
theorem BlockInv.putDevice {s : State} (h : BlockInv s) {r : DevRef} {d e : Device} (hd : deviceAt? s r = some d)
    (hid : e.id = d.id) (he : deviceOk d = true → deviceOk e = true) : BlockInv (putDevice s r e) where
  devicesOk := forall_allDevices_putDevice h.devicesOk (he (h.devicesOk d (mem_allDevices hd)))
  idsNodup := by rw [ids_putDevice hd hid]; exact h.idsNodup
  brCfgOk := by rw [putDevice_brCfg]; exact h.brCfgOk
  hasIssuer := by rw [putDevice_issuers]; exact h.hasIssuer

theorem deviceOk_data {d : Device} {p : DataPath} (h : deviceOk d = true)
    (hp : dataPathOk d.window d.data = true → dataPathOk d.window p = true) :
    deviceOk { d with data := p } = true := by
  simp only [deviceOk, Bool.and_eq_true] at h ⊢
  exact ⟨h.1, hp h.2⟩

/-- `CopyFromSlot` keeps a buffer of `size` bytes one, where the span check of R67 passed. -/
theorem imageOk_copyFromSlot {m : Memory} {size off n : Nat} (hm : imageOk m size) (hs : off + n ≤ size) (v : Word) :
    imageOk (copyFromSlot m off v n) size :=
  ⟨copyFromSlot_wf hm.1 off v n, copyFromSlot_within hm.2 hs v⟩

theorem deviceOk_copyFromSlot {d : Device} {buf : Memory} {off n : Nat} (h : deviceOk d = true)
    (hpci : d.config = .pci buf) (hs : off + n ≤ devCfgSize) (v : Word) :
    deviceOk { d with config := .pci (copyFromSlot buf off v n) } = true := by
  obtain ⟨hwindow, hconfig, hdata⟩ := (deviceOk_iff d).1 h
  refine (deviceOk_iff _).2 ⟨hwindow, fun m hm => ?_, hdata⟩
  cases hm
  exact imageOk_copyFromSlot (hconfig buf hpci) hs v

/-- The effect of a completed transaction keeps the invariant: it stays within the window of the fixture, or within the
buffer whose span check passed (R67). -/
theorem Effect.blockInv {s t : State} {g : Target} {o : OutcomeTag} (he : Effect s g o t) (h : BlockInv s) :
    BlockInv t := by
  cases he with
  | same => exact h
  | event => exact h.congr rfl rfl rfl
  | @data r d p _ hd hp =>
    exact (h.putDevice (e := { d with data := p }) hd rfl fun hok => deviceOk_data hok hp).congr rfl rfl rfl
  | devCfg v _ hd hpci hs => exact h.putDevice hd rfl fun hok => deviceOk_copyFromSlot hok hpci hs v
  | brCfg v _ hs => exact ⟨h.devicesOk, h.idsNodup, imageOk_copyFromSlot h.brCfgOk hs v, h.hasIssuer⟩

/-- Settles O50: the arbiter, the model fault and each effect of a transaction keep the invariant. -/
theorem stepKeepsTheInvariant : Obligations.StepKeepsTheInvariant := by
  intro s t h hstep
  exact step_keeps hstep h (fun _ _ => h.of_arbitrate) (fun _ _ _ hu => hu.congr rfl rfl rfl)
    fun _ _ _ _ _ hu he => (he.blockInv hu).congr rfl rfl rfl

end Sys2Proof.Machine
end

section
/-! The model fault (10_state.md R33, 60_exceptions.md R203, R204): what raises it changes nothing else, and a faulted
block performs nothing. -/

namespace Sys2Proof.Machine

/-- Every instruction stands behind check 1 of R204. -/
theorem exec_eq_gate (i : Instr) (s : State) : ∃ k, exec i s = gate s k := by
  cases i <;> exact ⟨_, rfl⟩

/-- In a faulted block every instruction stops (R33). -/
theorem exec_of_faulted {s : State} {r : FaultRecord} (h : s.faulted = some r) (i : Instr) :
    exec i s = .fault (.stuck r) := by
  obtain ⟨k, hk⟩ := exec_eq_gate i s
  rw [hk, gate_of_faulted h]

theorem step_of_faulted {s : State} {r : FaultRecord} (h : s.faulted = some r) : step s = .fault (.stuck r) :=
  gate_of_faulted h _

/-- An instruction that leaves a model fault raised it, in an accepting block, and did nothing else: a completed
transaction leaves the fault as it was. -/
theorem exec_raises {i : Instr} {s t : State} (h : exec i s = .next t) (hf : t.faulted ≠ none) :
    Accepts s ∧ ∃ rn inf, t = raiseFault s rn inf ∧ FaultOf (encode i) rn inf := by
  have hx := exec_cases i s
  rw [h] at hx
  cases hx with
  | raises hs hof => exact ⟨hs, _, _, rfl, hof⟩
  | completes _ hs he _ => exact absurd (he.keeps.1.trans hs.2) hf

/-- Settles O8. -/
theorem modelFaultIsStickyAndChangesNothingElse : Obligations.ModelFaultIsStickyAndChangesNothingElse := by
  refine ⟨rfl, fun i s t h hf => ?_, fun s r h => ⟨step_of_faulted h, exec_of_faulted h⟩⟩
  obtain ⟨hs, rn, inf, rfl, hof⟩ := exec_raises h hf
  exact ⟨hs.2, rn, inf, rfl, hof⟩

end Sys2Proof.Machine
end

section
/-! The comparators (20_memory.md R54 to R57) and the byte swap (R65): what a route says of the address, and the width
at which each bus compares it. -/

namespace Sys2Proof.Machine

/-- `first(list, p)` of R10, clause by clause. -/
theorem firstAt_iff {p : Device → Prop} {l : List Device} {i : Nat} {d : Device} :
    FirstAt p l i d ↔ l[i]? = some d ∧ p d ∧ ∀ j e, j < i → l[j]? = some e → ¬ p e :=
  ⟨fun ⟨hat, hsat, hfirst⟩ => ⟨hat, hsat, hfirst⟩, fun ⟨hat, hsat, hfirst⟩ => ⟨hat, hsat, hfirst⟩⟩

theorem low32_toNat (a : Word) : (low32 a).toNat = a.toNat % 2 ^ 32 := by
  rw [BitVec.toNat_ofNat]
  omega

/-- The system bus reads no bit of an address above bit 31 (R57). -/
theorem sbRoute_congr {a b : Word} (h : a.toNat % 2 ^ 32 = b.toNat % 2 ^ 32) (l : List Device) :
    sbRoute l a = sbRoute l b := by
  have hlow : low32 a = low32 b := by rw [low32, h]
  rw [sbRoute, sbRoute, truncate32_eq, truncate32_eq, hlow]

/-- A device that a system-bus address reaches answers its low 32 bits (R57, R110). -/
theorem answers_of_sbRoute_direct {l : List Device} {a : Word} {i : Nat} {d : Device} (h : sbRoute l a = .direct i d) :
    Answers (low32 a) d := by
  rw [sbRoute, truncate32_eq] at h
  split at h
  · rename_i hs
    cases h
    exact (select_some.1 hs).sat
  · split at h <;> [skip; split at h] <;> cases h

/-- A device that a data path selects answers the whole address (R57, R130, R165). -/
theorem answers_of_dataRoute_dev {l : List Device} {a : Word} {i : Nat} {d : Device} (h : dataRoute l a = .dev i d) :
    Answers a d := by
  cases l with
  | nil => cases h
  | cons e l =>
    rw [dataRoute] at h
    split at h
    · rename_i hs
      cases h
      exact (select_some.1 hs).sat
    · cases h

/-- The bridge takes for itself only addresses of `BRSELF`, on all 64 bits (R57, D10). -/
theorem mem_brSelf_of_cfgRoute_self {l : List Device} {a : Word} {off : Nat} (h : cfgRoute l a = .self off) :
    0xD0000000 ≤ a ∧ a ≤ 0xD0000FFF := by
  rw [cfgRoute] at h
  split at h
  · exact contains_iff.1 ‹_›
  · split at h <;> [skip; split at h] <;> cases h

/-- Settles O16. -/
theorem systemBusComparesThirtyTwoBits : Obligations.SystemBusComparesThirtyTwoBits := by
  refine ⟨fun l a b h => sbRoute_congr h l, fun l a i d h => ?_, fun l a i d h => answers_of_dataRoute_dev h,
    fun l a off h => mem_brSelf_of_cfgRoute_self h⟩
  obtain ⟨hstart, hstop⟩ := answers_of_sbRoute_direct h
  rw [BitVec.le_def, low32_toNat] at hstart hstop
  exact ⟨hstart.trans_lt (Nat.mod_lt _ (by decide)), hstart, hstop⟩

/-- Settles O15. -/
theorem selectIsTheFirstMatch : Obligations.SelectIsTheFirstMatch :=
  fun _ _ => ⟨fun _ _ => select_some.trans firstAt_iff, select_none⟩

/-- Settles O25: the swap fills all eight bytes of its slot. -/
theorem byteSwapReversesTheBytes : Obligations.ByteSwapReversesTheBytes :=
  fun _ _ hi => (slotByte_fillSlot _ 8 0 hi).trans (if_pos hi)

end Sys2Proof.Machine
end

section
/-! The MEM fixture (95_test_vectors.md section 1.1; log entry 11). -/

namespace Sys2Proof.Machine

/-- The fixture's read: its bytes from offset `k`, 0 past the window, and the slot's own from byte `n` on. -/
theorem slotByte_memFixtureRead (w : Window) (m : Memory) (k n : Nat) (v : Word) {i : Nat} (hi : i < 8) :
    slotByte (memFixtureRead w m k n v) i =
      if i < n then (if k + i ≤ memLast w then Memory.read m (k + i) else 0) else slotByte v i :=
  slotByte_fillSlot _ _ _ hi

section
variable {d : Device} {m : Memory} (h : d.data = .memFixture m) (b : Bus) (k : Nat) (c : ByteCount) (addr v : Word)
include h

theorem dataRead_memFixture : dataRead b d k c addr v =
    (memFixtureRead d.window m (memOffset b d.window addr) (bytes c) v, d.data) := by
  rw [dataRead, h]

theorem dataWrite_memFixture : dataWrite b d k c addr v =
    .memFixture (memFixtureWrite d.window m (memOffset b d.window addr) v (bytes c)) := by
  rw [dataWrite, h]

end

/-- Settles O42. -/
theorem memFixtureReadsAndWritesItsBytes : Obligations.MemFixtureReadsAndWritesItsBytes := by
  refine ⟨⟨rfl, rfl, rfl⟩, fun b d k c addr v m h => ?_⟩
  rw [dataRead_memFixture h, dataWrite_memFixture h]
  have hwrite (hm : Memory.wf m) (j : Nat) :=
    memFixtureWrite_read (w := d.window) hm (memOffset b d.window addr) v (bytes c) j
  exact ⟨rfl, fun i hi => slotByte_memFixtureRead _ _ _ _ _ hi,
    fun hm => ⟨_, rfl, (hwrite hm 0).1, fun j => (hwrite hm j).2⟩⟩

end Sys2Proof.Machine
end

section
/-! The total order of transactions (20_memory.md R69, R70): what a step takes of what is pending, and what it performs.
-/

namespace Sys2Proof.Machine

/-- No instruction reads or changes what is pending: the arbiter alone does. -/
theorem exec_keeps_pending {i : Instr} {s t : State} (h : exec i s = .next t) :
    t.issuers = s.issuers ∧ t.deviceCalls = s.deviceCalls ∧ t.grants = s.grants := by
  refine exec_keeps (P := fun t => t.issuers = s.issuers ∧ t.deviceCalls = s.deviceCalls ∧ t.grants = s.grants) h
    (fun _ _ => ⟨rfl, rfl, rfl⟩) fun _ _ _ he => ?_
  obtain ⟨-, hissuers, hcalls, hgrants, -⟩ := he.keeps
  exact ⟨hissuers, hcalls, hgrants⟩

/-- After a step, what is pending is what the arbiter left; and an idle step changes nothing. -/
theorem step_pending {s t : State} (h : step s = .next t) :
    (arbitrate s = none ∧ t = s) ∨ ∃ r u, arbitrate s = some (r, u) ∧
      t.issuers = u.issuers ∧ t.deviceCalls = u.deviceCalls ∧ t.grants = u.grants := by
  have hstep : StepCases s (.next t) := h ▸ step_cases s
  generalize hx : (Host.Outcome.next t : Result) = x at hstep
  cases hstep with
  | runs harb _ => exact .inr ⟨_, _, harb, exec_keeps_pending hx.symm⟩
  | badRequest harb _ => cases hx; exact .inr ⟨_, _, harb, rfl, rfl, rfl⟩
  | idle harb => cases hx; exact .inl ⟨harb, rfl⟩
  | refuses _ => cases hx
  | stops _ => cases hx

/-- Settles O11: the arbiter takes the oldest request of one issuer or the oldest call, and the transaction leaves what
is pending alone. -/
theorem stepKeepsEachIssuersOrder : Obligations.StepKeepsEachIssuersOrder := by
  intro s t h
  rcases step_pending h with ⟨harb, rfl⟩ | ⟨r, u, harb, hissuers, hcalls, hgrants⟩
  · obtain ⟨hq, hc⟩ := arbitrate_none.1 harb
    exact .inl ⟨hq, hc, rfl, hc, rfl⟩
  · rcases arbitrate_took harb with ⟨k, w, q, -, hk, rfl⟩ | ⟨c, cs, -, hc, rfl⟩
    · exact .inr (.inl ⟨k, w, q, hk, hissuers, hcalls, hgrants⟩)
    · exact .inr (.inr ⟨c, hcalls ▸ hc, hissuers, hgrants⟩)

theorem step_of_arbitrate {s u : State} {r : PortRecord} (hs : Accepts s) (h : arbitrate s = some (r, u)) :
    step s = perform r u := by
  rw [step, gate_of_accepts hs, h]

theorem step_of_arbitrate_none {s : State} (hs : Accepts s) (h : arbitrate s = none) : step s = .next s := by
  rw [step, gate_of_accepts hs, h]

/-- However a record was picked, the step performs it (R69, R84, R204). -/
theorem stepPerforms_of_arbitrate {s u : State} {r : PortRecord} (hs : Accepts s) (h : arbitrate s = some (r, u)) :
    StepPerforms s r u where
  runs i hi := by rw [step_of_arbitrate hs h, perform, hi]
  faults hr := by rw [step_of_arbitrate hs h, perform, hr]; rfl
  refuses d hd := by rw [step_of_arbitrate hs h, perform, hd]

/-- A grant that names somebody with something presented is honoured. -/
theorem arbitrate_of_takeGranted {s : State} {g : Grant} {gs : List Grant} {p : PortRecord × State}
    (hg : s.grants = g :: gs) (h : takeGranted { s with grants := gs } g = some p) : arbitrate s = some p := by
  rw [arbitrate, hg]
  simp only [h]

theorem takeGranted_issuer {s : State} {k : Nat} {w : ReqWord} {q : List ReqWord} (h : s.issuers[k]? = some (w :: q)) :
    takeGranted s (.issuer k) = some (.req w, { s with issuers := s.issuers.set k q }) := by
  rw [takeGranted, popIssuer_of_get h, takeRequest]

theorem takeCall_cons {s : State} {c : DevCall} {cs : List DevCall} (h : s.deviceCalls = c :: cs) :
    takeCall s = some (.dev c, { s with deviceCalls := cs }) := by
  rw [takeCall, h]

/-- Without a grant the first issuer that has presented a request is served. -/
theorem takeAny_request {s : State} {k : Nat} {w : ReqWord} {q : List ReqWord} {qs : List (List ReqWord)}
    (h : s.issuers = List.replicate k [] ++ (w :: q) :: qs) :
    takeAny s = some (.req w, { s with issuers := List.replicate k [] ++ q :: qs }) := by
  rw [takeAny, h, popFirst_replicate, takeRequest]

/-- Without a grant and without a request the device port is served. -/
theorem takeAny_call {s : State} {c : DevCall} {cs : List DevCall} (hq : ∀ q ∈ s.issuers, q = [])
    (hc : s.deviceCalls = c :: cs) : takeAny s = some (.dev c, { s with deviceCalls := cs }) := by
  rw [takeAny, popFirst_none.2 hq, takeRequest, takeCall_cons hc]

/-- A `dop` of 101 to 111 spells no call (R83, log entry 17). -/
theorem decode_dopNeverIssued {c : DevCall} (h : 5 ≤ c.dop.toNat) : decode (.dev c) = .error (.dopNeverIssued c.dop) := by
  rw [decode, decodeDev]
  split
  case h_6 => rfl
  all_goals omega

/-- Settles O10: what the arbiter picks in each case, and that the step performs what it picks. -/
theorem stepPerformsThePickedRequest : Obligations.StepPerformsThePickedRequest := by
  refine ⟨fun s k gs w q hs hg hk => ?_, fun s gs c cs hs hg hc => ?_, fun s hs hn => ⟨fun k w q qs hq => ?_,
    fun c cs hq hc => ?_⟩, fun c => decode_dopNeverIssued, fun s hs hq hc => ?_⟩
  · exact stepPerforms_of_arbitrate hs (arbitrate_of_takeGranted hg (takeGranted_issuer hk))
  · exact stepPerforms_of_arbitrate hs (arbitrate_of_takeGranted hg (takeCall_cons hc))
  · exact stepPerforms_of_arbitrate hs ((arbitrate_any hn).trans (takeAny_request hq))
  · exact stepPerforms_of_arbitrate hs ((arbitrate_any hn).trans (takeAny_call hq hc))
  · exact step_of_arbitrate_none hs (arbitrate_none.2 ⟨hq, hc⟩)

end Sys2Proof.Machine
end

section
/-! What a transaction reaches (20_memory.md R56, R68): at most its target; a configuration read, nothing; a write, by
its low bytes alone (R62). -/

namespace Sys2Proof.Machine

/-- An instruction that answers a next state was presented to an accepting block (R204 check 1). -/
theorem accepts_of_exec {i : Instr} {s t : State} (h : exec i s = .next t) : Accepts s := by
  have hx := exec_cases i s
  rw [h] at hx
  cases hx with
  | raises hs _ => exact hs
  | completes _ hs _ _ => exact hs

/-! ### One target -/

/-- A device that is not the target is as before. -/
theorem Effect.deviceAt?_of_ne {s t : State} {g : Target} {o : OutcomeTag} (h : Effect s g o t) {r : DevRef}
    (hdata : g ≠ .data r) (hconfig : g ≠ .config r) : deviceAt? t r = deviceAt? s r := by
  cases h with
  | same => rfl
  | event => exact deviceAt?_emit ..
  | data _ hg _ _ => rw [deviceAt?_putData]; exact deviceAt?_putDevice s _ fun e => hdata (e ▸ hg)
  | devCfg _ hg _ _ _ => exact deviceAt?_putDevice s _ fun e => hconfig (e ▸ hg)
  | brCfg => exact deviceAt?_brCfg ..

/-- Of a device whose data path is the target, at most the private state changed. -/
theorem Effect.deviceAt?_data {s t : State} {r : DevRef} {o : OutcomeTag} (h : Effect s (.data r) o t) {d : Device}
    (hd : deviceAt? s r = some d) : ∃ p, deviceAt? t r = some { d with data := p } := by
  cases h with
  | same => exact ⟨d.data, hd⟩
  | event => exact ⟨d.data, hd⟩
  | data p hg hd' _ =>
    cases hg
    cases hd.symm.trans hd'
    exact ⟨p, (deviceAt?_putData ..).trans (deviceAt?_putDevice_self _ hd)⟩
  | devCfg _ hg => cases hg
  | brCfg _ hg => cases hg

/-- Of a device whose buffer is the target, at most the buffer changed. -/
theorem Effect.deviceAt?_config {s t : State} {r : DevRef} {o : OutcomeTag} (h : Effect s (.config r) o t) {d : Device}
    (hd : deviceAt? s r = some d) : ∃ c, deviceAt? t r = some { d with config := c } := by
  cases h with
  | same => exact ⟨d.config, hd⟩
  | event => exact ⟨d.config, hd⟩
  | data _ hg => cases hg
  | devCfg _ hg hd' _ _ =>
    cases hg
    cases hd.symm.trans hd'
    exact ⟨_, deviceAt?_putDevice_self _ hd⟩
  | brCfg _ hg => cases hg

theorem Effect.brCfg_of_ne {s t : State} {g : Target} {o : OutcomeTag} (h : Effect s g o t) (hg : g ≠ .bridge) :
    t.brCfg = s.brCfg := by
  cases h with
  | same => rfl
  | event => rfl
  | data => exact putData_brCfg ..
  | devCfg => exact putDevice_brCfg ..
  | brCfg _ h' => exact absurd h' hg

/-- An instruction that answers a next state has an effect, up to outputs and the model fault. -/
theorem exec_effect {i : Instr} {s t : State} (h : exec i s = .next t) :
    ∃ o u, Effect s (target i s) o u ∧ (∀ r, deviceAt? t r = deviceAt? u r) ∧ t.brCfg = u.brCfg :=
  exec_keeps
    (P := fun t => ∃ o u, Effect s (target i s) o u ∧ (∀ r, deviceAt? t r = deviceAt? u r) ∧ t.brCfg = u.brCfg) h
    (fun _ _ => ⟨.noopCfg, s, .same _, fun _ => deviceAt?_raiseFault .., rfl⟩)
    fun o u _ he => ⟨o, u, he, fun _ => deviceAt?_response .., rfl⟩

/-- Settles O52: the effect of a transaction, told by its target. -/
theorem transactionChangesAtMostOneDevice : Obligations.TransactionChangesAtMostOneDevice := by
  intro i s t h
  obtain ⟨o, u, he, hdevices, hbrCfg⟩ := exec_effect h
  simp only [hdevices, hbrCfg]
  exact ⟨fun r => he.deviceAt?_of_ne, fun r d hg hd => (hg ▸ he).deviceAt?_data hd,
    fun r d hg hd => (hg ▸ he).deviceAt?_config hd, he.brCfg_of_ne⟩

/-! ### Configuration reads -/

/-- A state with other outputs: nothing that R36 lists, and nothing pending, differs. -/
def withOutputs (s : State) (es : List Event) (x : Option Response) : State := { s with events := es, response := x }

theorem sameState_withOutputs (s : State) (es : List Event) (x : Option Response) : SameState s (withOutputs s es x) :=
  ⟨rfl, rfl, rfl, rfl, rfl, rfl, rfl, rfl, rfl, rfl⟩

@[simp] theorem withOutputs_br (s : State) (es : List Event) (x : Option Response) :
    (withOutputs s es x).br = s.br := rfl
@[simp] theorem withOutputs_brCfg (s : State) (es : List Event) (x : Option Response) :
    (withOutputs s es x).brCfg = s.brCfg := rfl

@[simp] theorem deviceAt?_withOutputs (s : State) (es : List Event) (x : Option Response) (r : DevRef) :
    deviceAt? (withOutputs s es x) r = deviceAt? s r := by
  cases r with | mk b p => cases b <;> rfl

/-- A transaction body that only reports in `s`: whatever the outputs of earlier transactions, it runs into the same span
check, or it completes with the same outcome and slot and at most adds the same events. -/
def OnlyReports (s : State) (body : State → Txn) : Prop :=
  (∃ b off, ∀ es x, body (withOutputs s es x) = .bounds b off) ∨
  ∃ new o v, ∀ es x, body (withOutputs s es x) = .done (withOutputs s (es ++ new) x) o v

theorem onlyReports_same (s : State) (o : OutcomeTag) (v : Word) : OnlyReports s fun s => .done s o v :=
  .inr ⟨[], o, v, fun es x => by rw [List.append_nil]⟩

theorem onlyReports_event (s : State) (ev : Event) (o : OutcomeTag) (v : Word) :
    OnlyReports s fun s => .done (emit s ev) o v :=
  .inr ⟨[ev], o, v, fun _ _ => rfl⟩

theorem onlyReports_bounds (s : State) (b : BufferRef) (off : Nat) : OnlyReports s fun _ => .bounds b off :=
  .inl ⟨b, off, fun _ _ => rfl⟩

theorem deviceCfgRead_onlyReports (s : State) (r : DevRef) (d : Device) (c : ByteCount) (a v : Word) :
    OnlyReports s (deviceCfgRead r d c a v) := by
  unfold deviceCfgRead
  split
  · exact onlyReports_same s _ _
  · split
    · exact onlyReports_bounds s _ _
    · exact onlyReports_same s _ _

/-- The bridge's configuration read reads the bridge's list and buffer, and no output. -/
theorem brCfgRead_onlyReports (s : State) (c : ByteCount) (a v : Word) : OnlyReports s (brCfgRead c a v) := by
  simp only [OnlyReports, brCfgRead, withOutputs_br, withOutputs_brCfg]
  cases cfgRoute s.br a with
  | self off =>
    by_cases hoff : off + bytes c > brCfgSize
    · simp only [if_pos hoff]
      exact onlyReports_bounds s _ _
    · simp only [if_neg hoff]
      exact onlyReports_same s _ _
  | unknown dn => exact onlyReports_event s _ _ _
  | notAttached dn => exact onlyReports_event s _ _ _
  | dev i d => exact deviceCfgRead_onlyReports s _ d c a v

/-- A result, as a function of the state, that repeats: whatever the outputs of earlier transactions, it answers the same
response and changes nothing else, but may add the same events. -/
def Repeats (s : State) (f : State → Result) : Prop :=
  ∃ new resp, ∀ es x, f (withOutputs s es x) = .next (withOutputs s (es ++ new) (some resp))

/-- A body that only reports repeats its response, unless its span check raised the model fault. -/
theorem settle_repeats {s t : State} {body : State → Txn} {rec : PortRecord} {mk : OutcomeTag → Word → Response}
    (hb : OnlyReports s body) (h : settle rec mk s (body s) = .next t) (hf : t.faulted = none) :
    Repeats s fun s => settle rec mk s (body s) := by
  rcases hb with ⟨b, off, hb⟩ | ⟨new, o, v, hb⟩
  · rw [show body s = .bounds b off from hb s.events s.response] at h
    cases h
    cases hf
  · exact ⟨new, mk o v, fun es x => by simp only [hb]; rfl⟩

theorem transact_repeats {s t : State} {body : ByteCount → State → Txn} {rec : PortRecord} {n : Byte}
    (hb : ∀ c, OnlyReports s (body c)) (h : transact rec n s (fun c => body c s) = .next t) (hf : t.faulted = none)
    (hs : Accepts s) : Repeats s fun s => transact rec n s fun c => body c s := by
  cases hn : legalCount n with
  | false =>
    rw [transact_illegal hs hn] at h
    cases h
    cases hf
  | true =>
    obtain ⟨c, rfl⟩ := exists_countField hn
    rw [transact_legal hs] at h
    obtain ⟨new, resp, hrep⟩ := settle_repeats (hb c) h hf
    exact ⟨new, resp, fun es x => (transact_legal (s := withOutputs s es x) hs _).trans (hrep es x)⟩

theorem callDevice_repeats {s t : State} {body : ByteCount → Device → State → Txn} {rec : PortRecord} {r : DevRef}
    {n : Byte} {mk : OutcomeTag → Word → Response} (hb : ∀ c d, OnlyReports s (body c d))
    (h : callDevice rec r n s mk (fun c d => body c d s) = .next t) (hf : t.faulted = none)
    (hs : Accepts s) : Repeats s fun s => callDevice rec r n s mk fun c d => body c d s := by
  cases hn : legalCount n with
  | false =>
    rw [callDevice_illegal hs hn] at h
    cases h
    cases hf
  | true =>
    obtain ⟨c, rfl⟩ := exists_countField hn
    cases hd : deviceAt? s r with
    | none =>
      rw [callDevice_missing hs hd] at h
      cases h
    | some d =>
      rw [callDevice_legal hs hd] at h
      obtain ⟨new, resp, hrep⟩ := settle_repeats (hb c d) h hf
      exact ⟨new, resp, fun es x => (callDevice_legal (s := withOutputs s es x) hs
        ((deviceAt?_withOutputs s es x r).trans hd) mk _).trans (hrep es x)⟩

/-- A configuration read that records no model fault repeats (R68). -/
theorem exec_repeats {i : Instr} {s t : State} (hi : isCfgRead i = true) (h : exec i s = .next t)
    (hf : t.faulted = none) : Repeats s (exec i) := by
  have hs := accepts_of_exec h
  cases i with
  | brCfgRead n a v => exact transact_repeats (fun c => brCfgRead_onlyReports s c a v) h hf hs
  | pbCfgRead n a v => exact transact_repeats (fun _ => onlyReports_same s _ v) h hf hs
  | devCfgRead r n a v => exact callDevice_repeats (fun c d => deviceCfgRead_onlyReports s r d c a v) h hf hs
  | _ => cases hi

/-- Settles O54: the state after the read is the state before it, with other outputs. -/
theorem configReadChangesNoStateAndRepeats : Obligations.ConfigReadChangesNoStateAndRepeats := by
  intro i s t hi h hf
  obtain ⟨new, resp, hrep⟩ := exec_repeats hi h hf
  have ht : exec i s = .next (withOutputs s (s.events ++ new) (some resp)) := hrep s.events s.response
  cases h.symm.trans ht
  exact ⟨sameState_withOutputs .., rfl, _, hrep _ _, rfl⟩

/-! ### Writes -/

/-- Two transaction bodies that leave the same block, up to the events: both run into the same span check, or both
complete. The outcome and the echoed slot may differ. -/
inductive SameStore : Txn → Txn → Prop
  | done (t : State) (es : List Event) (o o' : OutcomeTag) (v v' : Word) :
      SameStore (.done t o v) (.done { t with events := es } o' v')
  | bounds (b : BufferRef) (off : Nat) : SameStore (.bounds b off) (.bounds b off)

theorem SameStore.same {t t' : State} (h : t = t') (o o' : OutcomeTag) (v v' : Word) :
    SameStore (.done t o v) (.done t' o' v') :=
  h ▸ .done t t.events o o' v v'

/-- The devices, `BR.cfg` and whether there is a model fault are the same. -/
def SameStored (t t' : State) : Prop :=
  t'.sb = t.sb ∧ t'.br = t.br ∧ t'.pb = t.pb ∧ t'.brCfg = t.brCfg ∧ (t'.faulted = none ↔ t.faulted = none)

section
variable {c : ByteCount} {v v' : Word} (h : ∀ i < bytes c, slotByte v i = slotByte v' i) (s : State) (r : DevRef)
  (d : Device) (b : Bus) (a : Word)
include h

theorem dataWrite_congr (k : Nat) : dataWrite b d k c a v = dataWrite b d k c a v' := by
  unfold dataWrite
  split
  · rw [lowBytes_congr h]
  · rw [memFixtureWrite_congr h]

theorem deviceWrite_sameStore : SameStore (deviceWrite r d c a v s) (deviceWrite r d c a v' s) :=
  .same (by rw [dataWrite_congr h]) ..

theorem deviceCfgWrite_sameStore : SameStore (deviceCfgWrite r d c a v s) (deviceCfgWrite r d c a v' s) := by
  unfold deviceCfgWrite
  split
  · exact .same rfl ..
  · split
    · exact .bounds ..
    · exact .same (by rw [copyFromSlot_congr h]) ..

theorem pciWrite_sameStore : SameStore (pciWrite b c a v s) (pciWrite b c a v' s) := by
  unfold pciWrite
  split
  · exact .same rfl ..
  · exact deviceWrite_sameStore h ..
  · exact .same rfl ..

theorem brCfgWrite_sameStore : SameStore (brCfgWrite c a v s) (brCfgWrite c a v' s) := by
  unfold brCfgWrite
  split
  · split
    · exact .bounds ..
    · exact .same (by rw [copyFromSlot_congr h]) ..
  · exact .same rfl ..
  · exact .same rfl ..
  · exact deviceCfgWrite_sameStore h ..

/-- On a miss of the system bus the event carries all eight bytes of the data (R112), and the state does not. -/
theorem sbWrite_sameStore : SameStore (sbWrite c a v s) (sbWrite c a v' s) := by
  unfold sbWrite
  split
  · exact deviceWrite_sameStore h ..
  · split
    · exact brCfgWrite_sameStore h ..
    · exact .same rfl ..
  · exact pciWrite_sameStore h ..
  · exact .done (emit s _) _ _ _ _ _

end

section
variable {s t : State} {c : ByteCount} {rec rec' : PortRecord} {mk : OutcomeTag → Word → Response}

theorem settle_sameStored {x x' : Txn} (hx : SameStore x x') (h : settle rec mk s x = .next t) :
    ∃ t', settle rec' mk s x' = .next t' ∧ SameStored t t' := by
  cases hx with
  | done => cases h; exact ⟨_, rfl, rfl, rfl, rfl, rfl, Iff.rfl⟩
  | bounds => cases h; exact ⟨_, rfl, rfl, rfl, rfl, rfl, by simp⟩

theorem transact_sameStored {body body' : ByteCount → Txn} (hb : SameStore (body c) (body' c)) (hs : Accepts s)
    (h : transact rec (countField c) s body = .next t) :
    ∃ t', transact rec' (countField c) s body' = .next t' ∧ SameStored t t' := by
  rw [transact_legal hs] at h ⊢
  exact settle_sameStored hb h

theorem callDevice_sameStored {r : DevRef} {body body' : ByteCount → Device → Txn}
    (hb : ∀ d, SameStore (body c d) (body' c d)) (hs : Accepts s)
    (h : callDevice rec r (countField c) s mk body = .next t) :
    ∃ t', callDevice rec' r (countField c) s mk body' = .next t' ∧ SameStored t t' := by
  cases hd : deviceAt? s r with
  | none =>
    rw [callDevice_missing hs hd] at h
    cases h
  | some d =>
    rw [callDevice_legal hs hd] at h ⊢
    exact settle_sameStored (hb d) h

end

/-- Settles O55: each of the seven writes, by what its body stores. -/
theorem writesIgnoreHighDataBytes : Obligations.WritesIgnoreHighDataBytes := by
  intro s t r c a v v' h
  simp only [List.forall_mem_cons]
  refine ⟨fun hx => ?_, fun hx => ?_, fun hx => ?_, fun hx => ?_, fun hx => ?_, fun hx => ?_, fun hx => ?_,
    fun _ hp => absurd hp List.not_mem_nil⟩
  · exact transact_sameStored (sbWrite_sameStore h s a) (accepts_of_exec hx) hx
  · exact transact_sameStored (pciWrite_sameStore h s .br a) (accepts_of_exec hx) hx
  · exact transact_sameStored (brCfgWrite_sameStore h s a) (accepts_of_exec hx) hx
  · exact transact_sameStored (pciWrite_sameStore h s .pb a) (accepts_of_exec hx) hx
  · exact transact_sameStored (.same rfl ..) (accepts_of_exec hx) hx
  · exact callDevice_sameStored (fun d => deviceWrite_sameStore h s r d a) (accepts_of_exec hx) hx
  · exact callDevice_sameStored (fun d => deviceCfgWrite_sameStore h s r d a) (accepts_of_exec hx) hx

end Sys2Proof.Machine
end

section
/-! Records and decoding (30_encoding.md R80 to R85, R94, R95): the ten legal headers, the five legal `dop` codes, the two
checks of a request in their order, and the response record. -/

namespace Sys2Proof.Machine

/-- Every instruction is what its record decodes to, one lemma of `Laws.RoundTrip` for each. -/
theorem decode_encode (i : Instr) : decode (encode i) = .ok i := by
  cases i with
  | sbRead n a v => exact Laws.RoundTrip.sbRead n a v
  | sbWrite n a v => exact Laws.RoundTrip.sbWrite n a v
  | brRead n a v => exact Laws.RoundTrip.brRead n a v
  | brWrite n a v => exact Laws.RoundTrip.brWrite n a v
  | brCfgRead n a v => exact Laws.RoundTrip.brCfgRead n a v
  | brCfgWrite n a v => exact Laws.RoundTrip.brCfgWrite n a v
  | pbRead n a v => exact Laws.RoundTrip.pbRead n a v
  | pbWrite n a v => exact Laws.RoundTrip.pbWrite n a v
  | pbCfgRead n a v => exact Laws.RoundTrip.pbCfgRead n a v
  | pbCfgWrite n a v => exact Laws.RoundTrip.pbCfgWrite n a v
  | devRead r n a v => exact Laws.RoundTrip.devRead r n a v
  | devWrite r n a v => exact Laws.RoundTrip.devWrite r n a v
  | devCfgRead r n a v => exact Laws.RoundTrip.devCfgRead r n a v
  | devCfgWrite r n a v => exact Laws.RoundTrip.devCfgWrite r n a v
  | devIdentify r => exact Laws.RoundTrip.devIdentify r

/-- Settles O3. -/
theorem decodeOfEncodeIsTheInstruction : Obligations.DecodeOfEncodeIsTheInstruction :=
  decode_encode

/-! ### Legal and illegal headers -/

/-- A legal header spells an operation whose one record is this one and whose byteCount is the record's (R84). -/
theorem decode_of_legal_header {w : ReqWord} (h : reqHdr w ∈ legalHeaders) :
    ∃ i, decode (.req w) = .ok i ∧ encode i = .req w ∧ i.byteCountField? = some (reqCount w) := by
  rw [← mkReq_fields w]
  generalize reqHdr w = hdr at h ⊢
  simp only [legalHeaders, List.mem_cons, List.not_mem_nil, or_false] at h
  rcases h with rfl | rfl | rfl | rfl | rfl | rfl | rfl | rfl | rfl | rfl <;>
    exact ⟨_, decode_mkReq .., rfl, rfl⟩

/-- The table of R84 has no row for a header that is not among the ten. -/
theorem decode_of_illegal_header {w : ReqWord} (h : reqHdr w ∉ legalHeaders) : decode (.req w) = .error .badRequest := by
  have hrow : (reqHdr w).toNat ∉ legalHeaders.map BitVec.toNat := by
    rwa [List.mem_map_of_injective fun _ _ => BitVec.eq_of_toNat_eq]
  rw [decode, decodeReq]
  split
  case h_11 => rfl
  all_goals
    rename_i heq
    exact absurd (by rw [heq]; decide) hrow

theorem perform_of_ok {r : PortRecord} {i : Instr} (h : decode r = .ok i) (s : State) : perform r s = exec i s := by
  rw [perform, h]

theorem perform_of_badRequest {r : PortRecord} (h : decode r = .error .badRequest) (s : State) :
    perform r s = .next (raiseFault s .badRequest ⟨r, none⟩) := by
  rw [perform, h]

/-- A call with a `dop` of at most 100 decodes; and all its fields stand in the instruction, but those of DEV.IDENTIFY
(R83, R170). -/
theorem decode_of_legal_dop {c : DevCall} (h : c.dop.toNat ≤ 4) :
    ∃ i, decode (.dev c) = .ok i ∧ (c.dop ≠ 0b100 → encode i = .dev c) := by
  obtain ⟨dop, r, a, n, v⟩ := c
  have hdop : ∀ x : BitVec 3, x.toNat ≤ 4 → x = 0 ∨ x = 1 ∨ x = 2 ∨ x = 3 ∨ x = 4 := by decide
  rcases hdop dop h with rfl | rfl | rfl | rfl | rfl
  · exact ⟨.devRead r n a v, rfl, fun _ => rfl⟩
  · exact ⟨.devWrite r n a v, rfl, fun _ => rfl⟩
  · exact ⟨.devCfgRead r n a v, rfl, fun _ => rfl⟩
  · exact ⟨.devCfgWrite r n a v, rfl, fun _ => rfl⟩
  · exact ⟨.devIdentify r, rfl, fun h => absurd rfl h⟩

theorem dop_le_of_decode {c : DevCall} {i : Instr} (h : decode (.dev c) = .ok i) : c.dop.toNat ≤ 4 := by
  by_contra hdop
  rw [decode_dopNeverIssued (by omega)] at h
  cases h

/-- Settles O2. -/
theorem headersSpellOperationsOrRaiseBadRequest : Obligations.HeadersSpellOperationsOrRaiseBadRequest := by
  refine ⟨fun n a v => ?_, fun s h n a v _ hh => ?_, fun c => ⟨fun ⟨_, hi⟩ => dop_le_of_decode hi, fun hdop => ?_⟩⟩
  · have hrow (h : Byte) := decode_mkReq h n a v
    exact ⟨hrow 0x00, hrow 0x01, hrow 0x04, hrow 0x05, hrow 0x06, hrow 0x07, hrow 0x08, hrow 0x09, hrow 0x0A, hrow 0x0B⟩
  · exact perform_of_badRequest (decode_of_illegal_header (by rwa [reqHdr_mk])) s
  · obtain ⟨i, hi, -⟩ := decode_of_legal_dop hdop
    exact ⟨i, hi⟩

/-- Settles O4: what decodes has a legal header or `dop`, and then the fields of the instruction are the record's. -/
theorem encodeOfDecodeIsTheRecord : Obligations.EncodeOfDecodeIsTheRecord := by
  refine ⟨fun w i hi => ?_, fun c i hdop hi => ?_⟩
  · by_cases hh : reqHdr w ∈ legalHeaders
    · obtain ⟨j, hj, henc, -⟩ := decode_of_legal_header hh
      cases hi.symm.trans hj
      exact henc
    · cases hi.symm.trans (decode_of_illegal_header hh)
  · obtain ⟨j, hj, henc⟩ := decode_of_legal_dop (dop_le_of_decode hi)
    cases hi.symm.trans hj
    exact henc hdop

/-! ### The byteCount -/

theorem wellFormed_of_byteCount {i : Instr} {n : Byte} (h : i.byteCountField? = some n) :
    i.wellFormed = legalCount n := by
  rw [Instr.wellFormed, h]

theorem legalCount_eq_false {n : Byte} (h1 : n ≠ 1) (h2 : n ≠ 2) (h4 : n ≠ 4) (h8 : n ≠ 8) : legalCount n = false := by
  simp only [legalCount, beq_false_of_ne h1, beq_false_of_ne h2, beq_false_of_ne h4, beq_false_of_ne h8, Bool.or_self]

/-- The byteCount is judged before any route is taken: an ill-formed instruction raises `BadByteCount`, whatever its
operation (R85, R204 check 3; log entry 7 for the device calls). -/
theorem exec_of_not_wellFormed {i : Instr} {s : State} (hs : Accepts s) (h : i.wellFormed = false) :
    exec i s = .next (raiseFault s .badByteCount ⟨encode i, none⟩) := by
  cases i with
  | devRead _ _ _ _ => exact callDevice_illegal hs h _ _
  | devWrite _ _ _ _ => exact callDevice_illegal hs h _ _
  | devCfgRead _ _ _ _ => exact callDevice_illegal hs h _ _
  | devCfgWrite _ _ _ _ => exact callDevice_illegal hs h _ _
  | devIdentify _ => cases h
  | _ => exact transact_illegal hs h _

/-- Settles O6. -/
theorem illegalByteCountRaisesBadByteCount : Obligations.IllegalByteCountRaisesBadByteCount := by
  refine ⟨⟨rfl, rfl⟩, fun s n a v hs h1 h2 h4 h8 i hi => exec_of_not_wellFormed hs ?_⟩
  have hcount : i.byteCountField? = some n := by fin_cases hi <;> rfl
  rw [wellFormed_of_byteCount hcount, legalCount_eq_false h1 h2 h4 h8]

/-- Settles O7. -/
theorem illegalByteCountOfDeviceCallRaisesBadByteCount :
    Obligations.IllegalByteCountOfDeviceCallRaisesBadByteCount := by
  intro s r n a v hs h1 h2 h4 h8 i hi
  have hcount : i.byteCountField? = some n := by fin_cases hi <;> rfl
  exact exec_of_not_wellFormed hs (by rw [wellFormed_of_byteCount hcount, legalCount_eq_false h1 h2 h4 h8])

theorem classify_of_ok {r : PortRecord} {i : Instr} (h : decode r = .ok i) :
    classify r = if i.wellFormed then .operation i else .badByteCount := by
  rw [classify, h]

theorem classify_of_badRequest {r : PortRecord} (h : decode r = .error .badRequest) : classify r = .badRequest := by
  rw [classify, h]

/-- Settles O5: the header decides first, then the byteCount. -/
theorem everyRequestIsOneOperationOrOneFault : Obligations.EveryRequestIsOneOperationOrOneFault := by
  intro s w hs
  by_cases hh : reqHdr w ∈ legalHeaders
  · obtain ⟨i, hi, henc, hcount⟩ := decode_of_legal_header hh
    rw [classify_of_ok hi, perform_of_ok hi]
    cases hwf : i.wellFormed with
    | true => exact ⟨hwf, henc, rfl⟩
    | false => exact ⟨hh, (wellFormed_of_byteCount hcount).symm.trans hwf, henc ▸ exec_of_not_wellFormed hs hwf⟩
  · have hbad := decode_of_illegal_header hh
    rw [classify_of_badRequest hbad]
    exact ⟨hh, perform_of_badRequest hbad s⟩

/-- Settles O1, by running the decoder on each word. -/
theorem wordsOfTheSpecDecode : Obligations.WordsOfTheSpecDecode :=
  ⟨rfl, rfl, rfl, rfl, rfl, rfl, rfl, rfl, rfl, rfl, rfl, rfl, rfl, rfl, rfl⟩

/-! ### The response record -/

/-- Settles O24: the record is the concatenation of the outcome code and the slot. -/
theorem responseRecordHoldsOutcomeAndSlot : Obligations.ResponseRecordHoldsOutcomeAndSlot := by
  refine ⟨fun o v => ⟨?_, ?_⟩, rfl, rfl⟩
  · exact BitVec.extractLsb'_append_eq_left
  · exact BitVec.extractLsb'_append_eq_right

end Sys2Proof.Machine
end

section
/-! Configuration addresses and lines of assembly (30_encoding.md R88 to R93, R96): the fields of an address, the
bridge's own window, and what a line of assembly spells. -/

namespace Sys2Proof.Machine

/-! ### The fields of a configuration address -/

theorem cfgDevice_toNat (a : Word) : (cfgDevice a).toNat = a.toNat / 2 ^ 15 % 32 := by
  rw [cfgDevice, BitVec.extractLsb'_toNat, Nat.shiftRight_eq_div_pow]

theorem cfgBus_toNat (a : Word) : (cfgBus a).toNat = a.toNat / 2 ^ 20 % 16 := by
  rw [cfgBus, BitVec.extractLsb'_toNat, Nat.shiftRight_eq_div_pow]

theorem cfgRegister_toNat (a : Word) : (cfgRegister a).toNat = a.toNat % 4096 := by
  rw [cfgRegister, BitVec.extractLsb'_toNat, Nat.shiftRight_zero]

section
variable (b : BitVec 4) (d : BitVec 5) (r : BitVec 12)

theorem cfgDevice_cfgAddr : cfgDevice (cfgAddr b d r) = d := by
  apply BitVec.eq_of_toNat_eq
  rw [cfgDevice_toNat, cfgAddr_toNat]
  omega

theorem cfgBus_cfgAddr : cfgBus (cfgAddr b d r) = b := by
  apply BitVec.eq_of_toNat_eq
  rw [cfgBus_toNat, cfgAddr_toNat]
  omega

theorem cfgRegister_cfgAddr : cfgRegister (cfgAddr b d r) = r := by
  apply BitVec.eq_of_toNat_eq
  rw [cfgRegister_toNat, cfgAddr_toNat]
  omega

end

/-- A configuration address of bus 0 and device 0 is its register's distance above the base of `BRSELF` (R91). -/
theorem cfgAddr_zero_toNat (r : BitVec 12) : (cfgAddr 0 0 r).toNat = 0xD0000000 + r.toNat :=
  cfgAddr_toNat 0 0 r

theorem cfgAddr_zero_mem_brSelf (r : BitVec 12) : 0xD0000000 ≤ cfgAddr 0 0 r ∧ cfgAddr 0 0 r ≤ 0xD0000FFF := by
  have hr := cfgAddr_zero_toNat r
  constructor <;> bv_omega

/-- Settles O18. -/
theorem cfgAddrFieldsAreItsArguments : Obligations.CfgAddrFieldsAreItsArguments := by
  refine ⟨fun b d r => ⟨cfgDevice_cfgAddr b d r, cfgBus_cfgAddr b d r, cfgRegister_cfgAddr b d r, cfgAddr_toNat b d r⟩,
    fun l r => ?_, fun a => ⟨cfgDevice_toNat a, cfgBus_toNat a, cfgRegister_toNat a⟩⟩
  rw [cfgRoute_self (cfgAddr_zero_mem_brSelf r), cfgAddr_zero_toNat, Nat.add_sub_cancel_left]

/-- Settles O19. -/
theorem selfWindowOffsetIsDistanceFromBase : Obligations.SelfWindowOffsetIsDistanceFromBase :=
  fun _ hbase hend => brSelfOffset_eq ⟨hbase, hend⟩

/-- Settles O20, by reading the table at each number. -/
theorem deviceNumberTableIsAsListed : Obligations.DeviceNumberTableIsAsListed := rfl

/-! ### Lines of assembly -/

/-- What a line spells is an upstream request with the line's byteCount (R92). -/
theorem assemble_some {l : AsmLine} {i : Instr} (h : assemble l = some i) :
    i.byteCountField? = some (countField l.n) ∧ isDevCall i = false := by
  obtain ⟨port, op, a, c, data⟩ := l
  cases op with
  | read => cases port <;> cases h <;> exact ⟨rfl, rfl⟩
  | write => cases port <;> obtain ⟨v, -, rfl⟩ := Option.map_eq_some_iff.1 h <;> exact ⟨rfl, rfl⟩
  | cfgRead => cases port <;> cases h <;> exact ⟨rfl, rfl⟩
  | cfgWrite =>
    cases port with
    | sb => cases h
    | br => obtain ⟨v, -, rfl⟩ := Option.map_eq_some_iff.1 h; exact ⟨rfl, rfl⟩
    | pb => obtain ⟨v, -, rfl⟩ := Option.map_eq_some_iff.1 h; exact ⟨rfl, rfl⟩

/-- The lines that spell no request: a configuration operation of port S, and a write without its data (R92). -/
theorem assemble_eq_none (l : AsmLine) : assemble l = none ↔
    (l.port = .sb ∧ (l.op = .cfgRead ∨ l.op = .cfgWrite)) ∨ ((l.op = .write ∨ l.op = .cfgWrite) ∧ l.data = none) := by
  obtain ⟨port, op, a, c, data⟩ := l
  cases op with
  | read => cases port <;> simp [assemble]
  | write => cases port <;> simp [assemble]
  | cfgRead => cases port <;> simp [assemble]
  | cfgWrite => cases port <;> simp [assemble]

/-- Settles O22: each line with data is a row of the table. -/
theorem assemblyLinesSpellWellFormedRequests : Obligations.AssemblyLinesSpellWellFormedRequests := by
  refine ⟨fun a c v => ⟨rfl, rfl, rfl, rfl, rfl, rfl, rfl, rfl, rfl, rfl⟩, fun b a c => ?_, assemble_eq_none,
    fun l i h => ?_⟩
  · cases b <;> exact ⟨rfl, rfl⟩
  · obtain ⟨hcount, hdev⟩ := assemble_some h
    exact ⟨(wellFormed_of_byteCount hcount).trans (legalCount_countField l.n), hdev⟩

/-- The address of `BRCFGRD off` and `BRCFGWR off` is the sum of R93, with no carry out of 64 bits. -/
theorem brCfgAddr_eq (off : BitVec 12) :
    (0xD0000000 + off.setWidth 64 : Word) = BitVec.ofNat 64 (0xD0000000 + off.toNat) := by
  apply BitVec.eq_of_toNat_eq
  simp

/-- Settles O23: the expansions are those of the definitions, once the address of BRCFGRD and BRCFGWR is the sum. -/
theorem pseudoInstructionsExpandAsListed : Obligations.PseudoInstructionsExpandAsListed := by
  intro n addr v bus dev reg off
  rw [pseudoBrCfgRd, pseudoBrCfgWr, brCfgAddr_eq]
  exact ⟨rfl, rfl, rfl, rfl, rfl, rfl⟩

end Sys2Proof.Machine
end

section
/-! Device references and the configuration buffers of devices (30_encoding.md R83, R88, R90; 43_device_port.md R173,
R174): a call to no device, and the round trip through a device's buffer. -/

namespace Sys2Proof.Machine

theorem exec_devIdentify_missing {s : State} {r : DevRef} (hs : Accepts s) (hr : deviceAt? s r = none) :
    exec (.devIdentify r) s = .fault (.noSuchDevice r) := by
  rw [exec, execDevIdentify, gate_of_accepts hs, hr]

/-- Settles O47. -/
theorem deviceCallToNoDeviceStops : Obligations.DeviceCallToNoDeviceStops := by
  refine ⟨fun s k => ⟨rfl, rfl, rfl⟩, fun s r c a v hs hr => ?_⟩
  simp only [List.forall_mem_cons]
  exact ⟨callDevice_missing hs hr _ _, callDevice_missing hs hr _ _, callDevice_missing hs hr _ _,
    callDevice_missing hs hr _ _, exec_devIdentify_missing hs hr, fun _ hi => absurd hi List.not_mem_nil⟩

section
variable {d : Device} {m : Memory} {c : ByteCount} {a : Word} (hpci : d.config = .pci m)
  (hspan : a.toNat % 256 + bytes c ≤ 256) (v : Word) (s : State)
include hpci hspan

/-- A configuration read of a PCI device within its 256 bytes (R90, R173). -/
theorem deviceCfgRead_pci (r : DevRef) :
    deviceCfgRead r d c a v s = .done s .hitDevice (copyToSlot v m (a.toNat % 256) (bytes c)) := by
  have hfits : ¬ a.toNat % 256 + bytes c > devCfgSize := Nat.not_lt.2 hspan
  simp only [deviceCfgRead, hpci, devCfgOffset_eq, if_neg hfits]

/-- A configuration write of a PCI device within its 256 bytes (R90, R174). -/
theorem deviceCfgWrite_pci (r : DevRef) : deviceCfgWrite r d c a v s =
    .done (putDevice s r { d with config := .pci (copyFromSlot m (a.toNat % 256) v (bytes c)) }) .hitDevice v := by
  have hfits : ¬ a.toNat % 256 + bytes c > devCfgSize := Nat.not_lt.2 hspan
  simp only [deviceCfgWrite, hpci, devCfgOffset_eq, if_neg hfits]

variable {s} {i : Nat} (hs : Accepts s) (ha : ¬ (0xD0000000 ≤ a ∧ a ≤ 0xD0000FFF))
  (hd : FirstAt (fun e => e.name ∈ devNames (cfgDevice a)) s.br i d)
include hs ha hd

/-- A configuration read of a PCI device behind the bridge (R133, R134). -/
theorem exec_brCfgRead_pci : exec (.brCfgRead (countField c) a v) s = .next { s with
    response := some (.rsp .hitDevice (copyToSlot v m (a.toNat % 256) (bytes c))) } := by
  rw [exec, execBrCfgRead, transact_legal hs, brCfgRead, cfgRoute_dev ha hd]
  simp only [deviceCfgRead_pci hpci hspan, settle]

/-- A configuration write of a PCI device behind the bridge (R133, R135). -/
theorem exec_brCfgWrite_pci : exec (.brCfgWrite (countField c) a v) s = .next { s with
    br := s.br.set i { d with config := .pci (copyFromSlot m (a.toNat % 256) v (bytes c)) }
    response := some (.rsp .hitDevice v) } := by
  rw [exec, execBrCfgWrite, transact_legal hs, brCfgWrite, cfgRoute_dev ha hd]
  simp only [deviceCfgWrite_pci hpci hspan, settle, putDevice, devices_br, setDevices_to_br]

end

/-- The first match of a list stays the first match when it is replaced by another match. -/
theorem FirstAt.set {p : Device → Prop} {l : List Device} {i : Nat} {d e : Device} (h : FirstAt p l i d) (he : p e) :
    FirstAt p (l.set i e) i e where
  at_ := List.getElem?_set_self (List.getElem?_eq_some_iff.1 h.at_).1
  sat := he
  first j x hj hx := h.first j x hj (by rwa [List.getElem?_set_ne hj.ne'] at hx)

/-- Bytes 0 to `n - 1` of a slot filled from a buffer that `v` was copied into at the same offset are those of `v`; the
others are the slot's own (R9). -/
theorem slotByte_copyToSlot_copyFromSlot {m : Memory} (hm : Memory.wf m) (off : Nat) (v slotIn : Word) (n : Nat) {k : Nat}
    (hk : k < 8) : slotByte (copyToSlot slotIn (copyFromSlot m off v n) off n) k =
      if k < n then slotByte v k else slotByte slotIn k := by
  rw [slotByte_copyToSlot _ _ _ _ hk]
  split
  · rw [copyFromSlot_read hm, if_pos (by omega), Nat.add_sub_cancel_left]
  · rfl

/-- Settles O36: the write leaves the device the first of its number, with the bytes in its buffer; the alias reaches it
again, at the same offset. -/
theorem deviceConfigWriteThenReadAtAlias : Obligations.DeviceConfigWriteThenReadAtAlias := by
  intro s c addr addr' data slotIn i d m hs ha ha' hnumber hlow hd hpci hm hspan
  have hfirst := hd.set (e := { d with config := .pci (copyFromSlot m (addr.toNat % 256) data (bytes c)) }) hd.sat
  refine ⟨_, _, _, exec_brCfgWrite_pci hpci hspan data hs ha hd,
    exec_brCfgRead_pci rfl (hlow ▸ hspan) slotIn hs ha' (hnumber ▸ hfirst), rfl, fun k hk => ?_⟩
  rw [hlow]
  exact slotByte_copyToSlot_copyFromSlot hm (addr.toNat % 256) data slotIn _ hk

end Sys2Proof.Machine
end

section
/-! The system bus (40_system_bus.md R110 to R114): what SB.READ and SB.WRITE answer on each route, when a request handed
on to the bridge is the bridge's own, and that a direct-attached device answers its window. -/

namespace Sys2Proof.Machine

/-! ### Requests handed on to the bridge -/

/-- No completed effect records a model fault (R33). -/
theorem Effect.faulted {s t : State} {g : Target} {o : OutcomeTag} (h : Effect s g o t) : t.faulted = s.faulted := by
  cases h with
  | same => rfl
  | event => rfl
  | data => exact putData_faulted ..
  | devCfg => exact putDevice_faulted ..
  | brCfg => rfl

/-- The record of a request shows only in the model fault it may raise (R113, R203). -/
theorem settle_eq_asRequest {s : State} {g : Target} {x : Txn} (hs : Accepts s) (hx : BodyOk s g x)
    (rec rec' : PortRecord) (mk : OutcomeTag → Word → Response) :
    settle rec mk s x = asRequest rec (settle rec' mk s x) := by
  cases x with
  | bounds => rfl
  | done t o v =>
    have hnone : t.faulted = none := (hx t o v rfl).faulted.trans hs.2
    simp only [settle, asRequest, mapNext, hnone, Option.map_none]

section
variable (b : Bus) (c : ByteCount) (addr v : Word) (s : State)

/-- A PCI data path has no span check: it always completes (R131, R160). -/
theorem pciRead_completes : ∃ t o w, pciRead b c addr v s = .done t o w := by
  rw [pciRead]
  split <;> exact ⟨_, _, _, rfl⟩

theorem pciWrite_completes : ∃ t o w, pciWrite b c addr v s = .done t o w := by
  rw [pciWrite]
  split <;> exact ⟨_, _, _, rfl⟩

end

/-- A transaction that completes leaves no trace of its record. -/
theorem settle_congr_of_completes {x : Txn} (h : ∃ t o w, x = .done t o w) (rec rec' : PortRecord)
    (mk : OutcomeTag → Word → Response) (s : State) : settle rec mk s x = settle rec' mk s x := by
  obtain ⟨t, o, w, rfl⟩ := h
  rfl

/-! ### Route by route (R110 to R113): each route's answer to SB.READ and to SB.WRITE, as the whole next state -/

section
variable {s : State} (hs : Accepts s) (c : ByteCount) {addr : Word} (v : Word)
include hs

theorem exec_sbRead :
    exec (.sbRead (countField c) addr v) s = settle (encode (.sbRead (countField c) addr v)) .rsp s (sbRead c addr v s) :=
  transact_legal hs _

theorem exec_sbWrite :
    exec (.sbWrite (countField c) addr v) s =
      settle (encode (.sbWrite (countField c) addr v)) .rsp s (sbWrite c addr v s) :=
  transact_legal hs _

section
variable {i : Nat} {d : Device} (hd : FirstAt (Answers (low32 addr)) s.sb i d)
include hd

theorem exec_sbRead_direct : exec (.sbRead (countField c) addr v) s = .next { s with
    sb := s.sb.set i { d with data := (dataRead .sb d s.draws c addr v).2 }
    draws := s.draws + 1
    response := some (.rsp .hitDevice (dataRead .sb d s.draws c addr v).1) } := by
  rw [exec_sbRead hs, sbRead, sbRoute_direct hd]
  rfl

theorem exec_sbWrite_direct : exec (.sbWrite (countField c) addr v) s = .next { s with
    sb := s.sb.set i { d with data := dataWrite .sb d s.draws c addr v }
    draws := s.draws + 1
    response := some (.rsp .hitDevice v) } := by
  rw [exec_sbWrite hs, sbWrite, sbRoute_direct hd]
  rfl

end

section
variable (hno : ∀ d ∈ s.sb, ¬ Answers (low32 addr) d)
include hno

section
variable (hcfg : 0xD0000000 ≤ low32 addr ∧ low32 addr ≤ 0xD1000000)
include hcfg

theorem exec_sbRead_cfgWin (hfwd : s.fwdCfgAtSb = false) : exec (.sbRead (countField c) addr v) s = .next { s with
    events := s.events ++ [.sbCfgWindow .read addr], response := some (.rsp .sbCfgWindow 0) } := by
  rw [exec_sbRead hs, sbRead, sbRoute_cfgWin hno hcfg, if_neg (Bool.eq_false_iff.1 hfwd)]
  rfl

theorem exec_sbWrite_cfgWin (hfwd : s.fwdCfgAtSb = false) : exec (.sbWrite (countField c) addr v) s = .next { s with
    events := s.events ++ [.sbCfgWindow .write addr], response := some (.rsp .sbCfgWindow v) } := by
  rw [exec_sbWrite hs, sbWrite, sbRoute_cfgWin hno hcfg, if_neg (Bool.eq_false_iff.1 hfwd)]
  rfl

theorem exec_sbRead_forwarded (hfwd : s.fwdCfgAtSb = true) : exec (.sbRead (countField c) addr v) s =
    asRequest (encode (.sbRead (countField c) addr v)) (exec (.brCfgRead (countField c) addr v) s) := by
  have hbody : sbRead c addr v s = brCfgRead c addr v s := by
    rw [sbRead, sbRoute_cfgWin hno hcfg, if_pos hfwd]
  rw [exec_sbRead hs, hbody, exec, execBrCfgRead, transact_legal hs]
  exact settle_eq_asRequest hs (brCfgRead_ok s c addr v) _ _ _

theorem exec_sbWrite_forwarded (hfwd : s.fwdCfgAtSb = true) : exec (.sbWrite (countField c) addr v) s =
    asRequest (encode (.sbWrite (countField c) addr v)) (exec (.brCfgWrite (countField c) addr v) s) := by
  have hbody : sbWrite c addr v s = brCfgWrite c addr v s := by
    rw [sbWrite, sbRoute_cfgWin hno hcfg, if_pos hfwd]
  rw [exec_sbWrite hs, hbody, exec, execBrCfgWrite, transact_legal hs]
  exact settle_eq_asRequest hs (brCfgWrite_ok s c addr v) _ _ _

end

section
variable (hpci : 0xEA000000 ≤ low32 addr ∧ low32 addr ≤ 0xEA010000)
include hpci

theorem exec_sbRead_pciWin :
    exec (.sbRead (countField c) addr v) s = exec (.brRead (countField c) addr v) s := by
  have hbody : sbRead c addr v s = pciRead .br c addr v s := by rw [sbRead, sbRoute_pciWin hno hpci]
  rw [exec_sbRead hs, hbody, exec, execBrRead, transact_legal hs]
  exact settle_congr_of_completes (pciRead_completes .br c addr v s) _ _ _ _

theorem exec_sbWrite_pciWin :
    exec (.sbWrite (countField c) addr v) s = exec (.brWrite (countField c) addr v) s := by
  have hbody : sbWrite c addr v s = pciWrite .br c addr v s := by rw [sbWrite, sbRoute_pciWin hno hpci]
  rw [exec_sbWrite hs, hbody, exec, execBrWrite, transact_legal hs]
  exact settle_congr_of_completes (pciWrite_completes .br c addr v s) _ _ _ _

end

section
variable (hcfg : ¬ (0xD0000000 ≤ low32 addr ∧ low32 addr ≤ 0xD1000000))
  (hpci : ¬ (0xEA000000 ≤ low32 addr ∧ low32 addr ≤ 0xEA010000))
include hcfg hpci

theorem exec_sbRead_miss : exec (.sbRead (countField c) addr v) s = .next { s with
    events := s.events ++ [.unmapped .sb .read addr none], response := some (.rsp .missSbUnmapped 0) } := by
  rw [exec_sbRead hs, sbRead, sbRoute_miss hno hcfg hpci]
  rfl

theorem exec_sbWrite_miss : exec (.sbWrite (countField c) addr v) s = .next { s with
    events := s.events ++ [.unmapped .sb .write addr (some (bswap64 v))], response := some (.rsp .missSbUnmapped v) } := by
  rw [exec_sbWrite hs, sbWrite, sbRoute_miss hno hcfg hpci]
  rfl

end

end

end

/-- Settles O29: one lemma for each route of SB.READ. -/
theorem sbReadFollowsItsRoute : Obligations.SbReadFollowsItsRoute :=
  ⟨fun n a v => decode_mkReq 0x00 n a v, fun _ c _ v hs => ⟨fun _ _ hd => exec_sbRead_direct hs c v hd, fun hno =>
    ⟨fun hlo hhi => ⟨exec_sbRead_cfgWin hs c v hno ⟨hlo, hhi⟩, exec_sbRead_forwarded hs c v hno ⟨hlo, hhi⟩⟩,
      fun hlo hhi => exec_sbRead_pciWin hs c v hno ⟨hlo, hhi⟩, exec_sbRead_miss hs c v hno⟩⟩⟩

/-- Settles O30: one lemma for each route of SB.WRITE. -/
theorem sbWriteFollowsItsRoute : Obligations.SbWriteFollowsItsRoute :=
  ⟨fun n a v => decode_mkReq 0x01 n a v, fun _ c _ v hs => ⟨fun _ _ hd => exec_sbWrite_direct hs c v hd, fun hno =>
    ⟨fun hlo hhi => ⟨exec_sbWrite_cfgWin hs c v hno ⟨hlo, hhi⟩, exec_sbWrite_forwarded hs c v hno ⟨hlo, hhi⟩⟩,
      fun hlo hhi => exec_sbWrite_pciWin hs c v hno ⟨hlo, hhi⟩, exec_sbWrite_miss hs c v hno⟩⟩⟩

/-! ### A direct-attached device answers its window -/

/-- A match is the first one, whatever the order, where no other element of the list matches too. -/
theorem firstAt_of_unique {p : Device → Prop} {l : List Device} {i : Nat} {d : Device} (hat : l[i]? = some d) (hsat : p d)
    (hdisjoint : ∀ (j k : Nat) (e f : Device), j ≠ k → l[j]? = some e → l[k]? = some f → ¬ (p e ∧ p f)) :
    FirstAt p l i d where
  at_ := hat
  sat := hsat
  first j e hj he hsat' := hdisjoint j i e d hj.ne he hat ⟨hsat', hsat⟩

/-- Settles O17: under either condition the device is the first that answers. -/
theorem directDeviceAnswersItsWindow : Obligations.DirectDeviceAnswersItsWindow := by
  intro s c addr v i d hs hat hstart hstop hcases
  have hfirst : FirstAt (Answers (low32 addr)) s.sb i d := by
    rcases hcases with hearlier | hdisjoint
    · exact ⟨hat, ⟨hstart, hstop⟩, hearlier⟩
    · exact firstAt_of_unique hat ⟨hstart, hstop⟩ fun j k e f hjk he hf => hdisjoint j k e f hjk he hf (low32 addr)
  exact ⟨⟨_, _, exec_sbRead_direct hs c v hfirst⟩, _, exec_sbWrite_direct hs c v hfirst⟩

end Sys2Proof.Machine
end

section
/-! The PCI bridge (41_pci_bridge.md R130 to R136): what each route of its data path and of its configuration path
answers, as the whole next state; that its configuration path reads the bridge's list only; and the round trip through
`BR.cfg`. -/

namespace Sys2Proof.Machine

/-! ### The data path (R131, R132) -/

section
variable {b : Bus} {s : State} (c : ByteCount) {addr : Word} (v : Word)

section
variable (hempty : devices s b = [])
include hempty

theorem pciRead_empty :
    pciRead b c addr v s = .done (emit s (.unmapped b .read addr none)) .missPciEmpty 0xFFFFFFFFFFFFFFFF := by
  rw [pciRead, hempty, dataRoute_nil]
  rfl

theorem pciWrite_empty : pciWrite b c addr v s = .done s .missPciEmpty v := by
  rw [pciWrite, hempty, dataRoute_nil]

end

section
variable {i : Nat} {d : Device} (hd : FirstAt (Answers addr) (devices s b) i d)
include hd

theorem pciRead_dev : pciRead b c addr v s = deviceRead ⟨b, i⟩ d c addr v s := by
  rw [pciRead, dataRoute_dev hd]

theorem pciWrite_dev : pciWrite b c addr v s = deviceWrite ⟨b, i⟩ d c addr v s := by
  rw [pciWrite, dataRoute_dev hd]

end

section
variable (hlist : devices s b ≠ []) (hno : ∀ d ∈ devices s b, ¬ Answers addr d)
include hlist hno

theorem pciRead_miss :
    pciRead b c addr v s = .done (emit s (.unmapped b .read addr none)) .missPciUnmapped 0xFFFFFFFFFFFFFFFF := by
  rw [pciRead, dataRoute_miss hlist hno]
  rfl

theorem pciWrite_miss :
    pciWrite b c addr v s = .done (emit s (.unmapped b .write addr none)) .missPciUnmapped v := by
  rw [pciWrite, dataRoute_miss hlist hno]

end

end

section
variable {s : State} (hs : Accepts s) (c : ByteCount) (addr v : Word)
include hs

theorem exec_brRead : exec (.brRead (countField c) addr v) s =
    settle (encode (.brRead (countField c) addr v)) .rsp s (pciRead .br c addr v s) :=
  transact_legal hs _

theorem exec_brWrite : exec (.brWrite (countField c) addr v) s =
    settle (encode (.brWrite (countField c) addr v)) .rsp s (pciWrite .br c addr v s) :=
  transact_legal hs _

end

/-- Settles O31: one lemma for each route of the data path. -/
theorem brReadFollowsItsRoute : Obligations.BrReadFollowsItsRoute := by
  refine ⟨fun n a v => decode_mkReq 0x04 n a v, fun s c addr v hs => ?_⟩
  rw [exec_brRead hs c addr v]
  refine ⟨fun hempty => ?_, fun i d hd => ?_, fun hlist hno => ?_⟩
  · rw [pciRead_empty (b := .br) c v hempty]
    rfl
  · rw [pciRead_dev c v hd]
    rfl
  · rw [pciRead_miss (b := .br) c v hlist hno]
    rfl

/-- Settles O32: one lemma for each route of the data path. -/
theorem brWriteFollowsItsRoute : Obligations.BrWriteFollowsItsRoute := by
  refine ⟨fun n a v => decode_mkReq 0x05 n a v, fun s c addr v hs => ?_⟩
  rw [exec_brWrite hs c addr v]
  refine ⟨fun hempty => ?_, fun i d hd => ?_, fun hlist hno => ?_⟩
  · rw [pciWrite_empty (b := .br) c v hempty]
    rfl
  · rw [pciWrite_dev c v hd]
    rfl
  · rw [pciWrite_miss (b := .br) c v hlist hno]
    rfl

/-! ### A device's configuration port where its buffer does not answer (R173 to R175) -/

section
variable {d : Device} (r : DevRef) (c : ByteCount) {a : Word} (v : Word) (s : State)

section
variable {m : Memory} (hpci : d.config = .pci m) (hspan : a.toNat % 256 + bytes c > 256)
include hpci hspan

/-- The span check of R67 on a device's 256 bytes: a read past them moves no byte (R173). -/
theorem deviceCfgRead_bounds : deviceCfgRead r d c a v s = .bounds (.device r) (a.toNat % 256) := by
  have hover : a.toNat % 256 + bytes c > devCfgSize := hspan
  simp only [deviceCfgRead, hpci, devCfgOffset_eq, if_pos hover]

theorem deviceCfgWrite_bounds : deviceCfgWrite r d c a v s = .bounds (.device r) (a.toNat % 256) := by
  have hover : a.toNat % 256 + bytes c > devCfgSize := hspan
  simp only [deviceCfgWrite, hpci, devCfgOffset_eq, if_pos hover]

end

section
variable (hmmio : d.config = .mmio)
include hmmio

theorem deviceCfgRead_mmio : deviceCfgRead r d c a v s = .done s .noopCfg v := by
  simp only [deviceCfgRead, hmmio]

theorem deviceCfgWrite_mmio : deviceCfgWrite r d c a v s = .done s .noopCfg v := by
  simp only [deviceCfgWrite, hmmio]

end

end

/-! ### The configuration path, route by route (R133 to R135) -/

section
variable {s : State} (hs : Accepts s) (c : ByteCount) {addr : Word} (v : Word)
include hs

theorem exec_brCfgRead : exec (.brCfgRead (countField c) addr v) s =
    settle (encode (.brCfgRead (countField c) addr v)) .rsp s (brCfgRead c addr v s) :=
  transact_legal hs _

theorem exec_brCfgWrite : exec (.brCfgWrite (countField c) addr v) s =
    settle (encode (.brCfgWrite (countField c) addr v)) .rsp s (brCfgWrite c addr v s) :=
  transact_legal hs _

section
variable (hself : 0xD0000000 ≤ addr ∧ addr ≤ 0xD0000FFF)
include hself

section
variable (hspan : addr.toNat - 0xD0000000 + bytes c ≤ 4096)
include hspan

/-- Inside `BRSELF` the offset into `BR.cfg` is the distance from the base (R89, R134). -/
theorem exec_brCfgRead_self : exec (.brCfgRead (countField c) addr v) s = .next { s with
    response := some (.rsp .hitBridgeCfg (copyToSlot v s.brCfg (addr.toNat - 0xD0000000) (bytes c))) } := by
  have hfits : ¬ addr.toNat - 0xD0000000 + bytes c > brCfgSize := Nat.not_lt.2 hspan
  simp only [exec_brCfgRead hs, brCfgRead, cfgRoute_self hself, if_neg hfits, settle]

theorem exec_brCfgWrite_self : exec (.brCfgWrite (countField c) addr v) s = .next { s with
    brCfg := copyFromSlot s.brCfg (addr.toNat - 0xD0000000) v (bytes c)
    response := some (.rsp .hitBridgeCfg v) } := by
  have hfits : ¬ addr.toNat - 0xD0000000 + bytes c > brCfgSize := Nat.not_lt.2 hspan
  simp only [exec_brCfgWrite hs, brCfgWrite, cfgRoute_self hself, if_neg hfits, settle]

end

section
variable (hspan : addr.toNat - 0xD0000000 + bytes c > 4096)
include hspan

theorem exec_brCfgRead_self_bounds : exec (.brCfgRead (countField c) addr v) s = .next { s with
    faulted := some ⟨.cfgBounds, ⟨encode (.brCfgRead (countField c) addr v),
      some (.bridge, addr.toNat - 0xD0000000)⟩⟩
    response := none } := by
  have hover : addr.toNat - 0xD0000000 + bytes c > brCfgSize := hspan
  simp only [exec_brCfgRead hs, brCfgRead, cfgRoute_self hself, if_pos hover, settle, raiseFault]

theorem exec_brCfgWrite_self_bounds : exec (.brCfgWrite (countField c) addr v) s = .next { s with
    faulted := some ⟨.cfgBounds, ⟨encode (.brCfgWrite (countField c) addr v),
      some (.bridge, addr.toNat - 0xD0000000)⟩⟩
    response := none } := by
  have hover : addr.toNat - 0xD0000000 + bytes c > brCfgSize := hspan
  simp only [exec_brCfgWrite hs, brCfgWrite, cfgRoute_self hself, if_pos hover, settle, raiseFault]

end

end

section
variable (houtside : ¬ (0xD0000000 ≤ addr ∧ addr ≤ 0xD0000FFF))
include houtside

section
variable (hnone : devNames (cfgDevice addr) = [])
include hnone

theorem exec_brCfgRead_unknown : exec (.brCfgRead (countField c) addr v) s = .next { s with
    events := s.events ++ [.unknownConfigDevice (cfgDevice addr) addr]
    response := some (.rsp .cfgUnknownNumber v) } := by
  rw [exec_brCfgRead hs, brCfgRead, cfgRoute_unknown houtside hnone]
  rfl

theorem exec_brCfgWrite_unknown : exec (.brCfgWrite (countField c) addr v) s = .next { s with
    events := s.events ++ [.unknownConfigDevice (cfgDevice addr) addr]
    response := some (.rsp .cfgUnknownNumber v) } := by
  rw [exec_brCfgWrite hs, brCfgWrite, cfgRoute_unknown houtside hnone]
  rfl

end

section
variable (hnames : devNames (cfgDevice addr) ≠ []) (hno : ∀ d ∈ s.br, d.name ∉ devNames (cfgDevice addr))
include hnames hno

theorem exec_brCfgRead_notAttached : exec (.brCfgRead (countField c) addr v) s = .next { s with
    events := s.events ++ [.unknownConfigDevice (cfgDevice addr) addr]
    response := some (.rsp .cfgNotAttached 0xFFFFFFFFFFFFFFFF) } := by
  rw [exec_brCfgRead hs, brCfgRead, cfgRoute_notAttached houtside hnames hno]
  rfl

theorem exec_brCfgWrite_notAttached : exec (.brCfgWrite (countField c) addr v) s = .next { s with
    events := s.events ++ [.unknownConfigDevice (cfgDevice addr) addr]
    response := some (.rsp .cfgNotAttached v) } := by
  rw [exec_brCfgWrite hs, brCfgWrite, cfgRoute_notAttached houtside hnames hno]
  rfl

end

section
variable {i : Nat} {d : Device} (hd : FirstAt (fun e => e.name ∈ devNames (cfgDevice addr)) s.br i d)
include hd

theorem exec_brCfgRead_dev : exec (.brCfgRead (countField c) addr v) s =
    settle (encode (.brCfgRead (countField c) addr v)) .rsp s (deviceCfgRead ⟨.br, i⟩ d c addr v s) := by
  rw [exec_brCfgRead hs, brCfgRead, cfgRoute_dev houtside hd]

theorem exec_brCfgWrite_dev : exec (.brCfgWrite (countField c) addr v) s =
    settle (encode (.brCfgWrite (countField c) addr v)) .rsp s (deviceCfgWrite ⟨.br, i⟩ d c addr v s) := by
  rw [exec_brCfgWrite hs, brCfgWrite, cfgRoute_dev houtside hd]

end

end

end

/-- Settles O33: one lemma for each route, and the bytes of the slot by `slotByte_copyToSlot`. -/
theorem brCfgReadFollowsItsRoute : Obligations.BrCfgReadFollowsItsRoute := by
  refine ⟨fun n a v => decode_mkReq 0x06 n a v, fun s c addr v hs =>
    ⟨fun hlo hhi => ⟨fun hspan => ?_, fun hspan => ?_⟩, fun houtside => ⟨fun hnone => ?_, fun hnames hno => ?_, fun i d hd => ⟨fun m hpci hspan => ?_,
      fun m hpci hspan => ?_, fun hmmio => ?_⟩⟩⟩⟩
  · exact ⟨_, exec_brCfgRead_self hs c v ⟨hlo, hhi⟩ hspan, fun k hk => slotByte_copyToSlot v s.brCfg _ _ hk⟩
  · exact exec_brCfgRead_self_bounds hs c v ⟨hlo, hhi⟩ hspan
  · exact exec_brCfgRead_unknown hs c v houtside hnone
  · exact exec_brCfgRead_notAttached hs c v houtside hnames hno
  · exact ⟨_, exec_brCfgRead_pci hpci hspan v hs houtside hd, fun k hk => slotByte_copyToSlot v m _ _ hk⟩
  · rw [exec_brCfgRead_dev hs c v houtside hd, deviceCfgRead_bounds _ c v s hpci hspan]
    rfl
  · rw [exec_brCfgRead_dev hs c v houtside hd, deviceCfgRead_mmio _ c v s hmmio]
    rfl

/-- Settles O34: one lemma for each route, and the bytes of the buffer by `copyFromSlot_read`. -/
theorem brCfgWriteFollowsItsRoute : Obligations.BrCfgWriteFollowsItsRoute := by
  refine ⟨fun n a v => decode_mkReq 0x07 n a v, fun s c addr v hs =>
    ⟨fun hlo hhi => ⟨fun hm hspan => ?_, fun hspan => ?_⟩, fun houtside => ⟨fun hnone => ?_, fun hnames hno => ?_, fun i d hd => ⟨fun m hpci hm hspan => ?_,
      fun m hpci hspan => ?_, fun hmmio => ?_⟩⟩⟩⟩
  · exact ⟨_, exec_brCfgWrite_self hs c v ⟨hlo, hhi⟩ hspan, copyFromSlot_wf hm _ v _, copyFromSlot_read hm _ v _⟩
  · exact exec_brCfgWrite_self_bounds hs c v ⟨hlo, hhi⟩ hspan
  · exact exec_brCfgWrite_unknown hs c v houtside hnone
  · exact exec_brCfgWrite_notAttached hs c v houtside hnames hno
  · exact ⟨_, exec_brCfgWrite_pci hpci hspan v hs houtside hd, copyFromSlot_wf hm _ v _, copyFromSlot_read hm _ v _⟩
  · rw [exec_brCfgWrite_dev hs c v houtside hd, deviceCfgWrite_bounds _ c v s hpci hspan]
    rfl
  · rw [exec_brCfgWrite_dev hs c v houtside hd, deviceCfgWrite_mmio _ c v s hmmio]
    rfl

/-- Settles O35: the write leaves its bytes in `BR.cfg`, and the read finds them at the same offset. -/
theorem bridgeConfigWriteThenRead : Obligations.BridgeConfigWriteThenRead := by
  intro s c addr data slotIn hs hm hlo hhi hspan
  have hread := exec_brCfgRead_self (s := { s with
    brCfg := copyFromSlot s.brCfg (addr.toNat - 0xD0000000) data (bytes c)
    response := some (.rsp .hitBridgeCfg data) }) hs c slotIn ⟨hlo, hhi⟩ hspan
  exact ⟨_, _, _, exec_brCfgWrite_self hs c data ⟨hlo, hhi⟩ hspan, hread, rfl,
    fun i hi => slotByte_copyToSlot_copyFromSlot hm _ data slotIn _ hi⟩

/-! ### What the checks of a transaction do not see, and the lists that the configuration path does not read (R136) -/

/-- What a transaction's body does, with `f` applied to the state it completes with. -/
def Txn.mapState (f : State → State) : Txn → Txn
  | .done t o v => .done (f t) o v
  | .bounds b off => .bounds b off

/-- A change of the state that the checks of R204 do not see, and that commutes with the outputs and the model fault. -/
structure UnseenByChecks (f : State → State) : Prop where
  faulted  : ∀ s, (f s).faulted = s.faulted
  ready    : ∀ s, (f s).ready = s.ready
  response : ∀ s x, { f s with response := x } = f { s with response := x }
  raise    : ∀ s rn inf, raiseFault (f s) rn inf = f (raiseFault s rn inf)

section
variable {f : State → State} (hf : UnseenByChecks f) (s : State) (rec : PortRecord)
include hf

theorem gate_mapNext (k : Result) : gate (f s) (mapNext f k) = mapNext f (gate s k) := by
  simp only [gate, hf.faulted, hf.ready]
  cases s.faulted with
  | some r => rfl
  | none => cases s.ready <;> rfl

theorem settle_mapState (mk : OutcomeTag → Word → Response) (x : Txn) :
    settle rec mk (f s) (x.mapState f) = mapNext f (settle rec mk s x) := by
  cases x with
  | done t o v => exact congrArg _ (hf.response t _)
  | bounds b off => exact congrArg _ (hf.raise s _ _)

theorem withCount_mapNext (n : Byte) (k : ByteCount → Result) :
    withCount rec n (f s) (fun c => mapNext f (k c)) = mapNext f (withCount rec n s k) := by
  unfold withCount
  cases byteCount? n with
  | some c => rfl
  | none => exact congrArg _ (hf.raise s _ _)

/-- A transaction whose body commutes with `f` commutes with `f`. -/
theorem transact_mapState {body : ByteCount → State → Txn} (hbody : ∀ c, body c (f s) = (body c s).mapState f)
    (n : Byte) : transact rec n (f s) (fun c => body c (f s)) = mapNext f (transact rec n s fun c => body c s) := by
  simp only [transact, hbody, settle_mapState hf, withCount_mapNext hf, gate_mapNext hf]

end

/-- The state with the two device lists beside the bridge's replaced. -/
def withOtherLists (l l' : List Device) (s : State) : State := { s with sb := l, pb := l' }

theorem withOtherLists_unseen (l l' : List Device) : UnseenByChecks (withOtherLists l l') :=
  ⟨fun _ => rfl, fun _ => rfl, fun _ _ => rfl, fun _ _ _ => rfl⟩

section
variable (l l' : List Device) (c : ByteCount) (a v : Word) (s : State)

/-- A configuration read of any device writes no list. -/
theorem deviceCfgRead_withOtherLists (r : DevRef) (d : Device) :
    deviceCfgRead r d c a v (withOtherLists l l' s) = (deviceCfgRead r d c a v s).mapState (withOtherLists l l') := by
  unfold deviceCfgRead
  split
  · rfl
  · split <;> rfl

/-- A configuration write of a device behind the bridge writes the bridge's list only. -/
theorem deviceCfgWrite_withOtherLists (i : Nat) (d : Device) : deviceCfgWrite ⟨.br, i⟩ d c a v (withOtherLists l l' s) =
    (deviceCfgWrite ⟨.br, i⟩ d c a v s).mapState (withOtherLists l l') := by
  unfold deviceCfgWrite
  split
  · rfl
  · split <;> rfl

theorem brCfgRead_withOtherLists :
    brCfgRead c a v (withOtherLists l l' s) = (brCfgRead c a v s).mapState (withOtherLists l l') := by
  simp only [brCfgRead, withOtherLists]
  cases cfgRoute s.br a with
  | self off =>
    dsimp only
    split <;> rfl
  | unknown dn => rfl
  | notAttached dn => rfl
  | dev i d => exact deviceCfgRead_withOtherLists l l' c a v s ⟨.br, i⟩ d

theorem brCfgWrite_withOtherLists :
    brCfgWrite c a v (withOtherLists l l' s) = (brCfgWrite c a v s).mapState (withOtherLists l l') := by
  simp only [brCfgWrite, withOtherLists]
  cases cfgRoute s.br a with
  | self off =>
    dsimp only
    split <;> rfl
  | unknown dn => rfl
  | notAttached dn => rfl
  | dev i d => exact deviceCfgWrite_withOtherLists l l' c a v s i d

end

/-- Settles O21: the name match is a first match, and the two bodies read and change no list but the bridge's. -/
theorem nameMatchIsTheFirstNamed : Obligations.NameMatchIsTheFirstNamed := by
  refine ⟨fun l names => ⟨fun i d => nameMatch_some.trans firstAt_iff, nameMatch_none⟩, fun s l l' n a v => ?_⟩
  simp only [List.forall_mem_cons]
  have hunseen := withOtherLists_unseen l l'
  exact ⟨transact_mapState hunseen s _ (fun c => brCfgRead_withOtherLists l l' c a v s) n,
    transact_mapState hunseen s _ (fun c => brCfgWrite_withOtherLists l l' c a v s) n,
    fun _ hi => absurd hi List.not_mem_nil⟩

end Sys2Proof.Machine
end

section
/-! The standalone PCI bus (42_pci_bus.md R160 to R165): what each operation of port Q answers, as the whole next state;
and that port Q on one side, and ports S and B on the other, neither read nor change what is the other's (R164). -/

namespace Sys2Proof.Machine

/-! ### The operations of port Q (R160 to R163) -/

section
variable {s : State} (hs : Accepts s) (c : ByteCount) (addr v : Word)
include hs

theorem exec_pbRead : exec (.pbRead (countField c) addr v) s =
    settle (encode (.pbRead (countField c) addr v)) .rsp s (pciRead .pb c addr v s) :=
  transact_legal hs _

theorem exec_pbWrite : exec (.pbWrite (countField c) addr v) s =
    settle (encode (.pbWrite (countField c) addr v)) .rsp s (pciWrite .pb c addr v s) :=
  transact_legal hs _

theorem exec_pbCfgRead : exec (.pbCfgRead (countField c) addr v) s =
    .next { s with response := some (.rsp .noopCfg v) } :=
  transact_legal hs _

theorem exec_pbCfgWrite : exec (.pbCfgWrite (countField c) addr v) s =
    .next { s with response := some (.rsp .noopCfg v) } :=
  transact_legal hs _

end

/-- Settles O37: the routes of the PCI data read, on the list of port Q. -/
theorem pbReadFollowsItsRoute : Obligations.PbReadFollowsItsRoute := by
  refine ⟨fun n a v => decode_mkReq 0x08 n a v, fun s c addr v hs => ?_⟩
  rw [exec_pbRead hs c addr v]
  refine ⟨fun hempty => ?_, fun i d hd => ?_, fun hlist hno => ?_⟩
  · rw [pciRead_empty (b := .pb) c v hempty]
    rfl
  · rw [pciRead_dev c v hd]
    rfl
  · rw [pciRead_miss (b := .pb) c v hlist hno]
    rfl

/-- Settles O38: the routes of the PCI data write, on the list of port Q. -/
theorem pbWriteFollowsItsRoute : Obligations.PbWriteFollowsItsRoute := by
  refine ⟨fun n a v => decode_mkReq 0x09 n a v, fun s c addr v hs => ?_⟩
  rw [exec_pbWrite hs c addr v]
  refine ⟨fun hempty => ?_, fun i d hd => ?_, fun hlist hno => ?_⟩
  · rw [pciWrite_empty (b := .pb) c v hempty]
    rfl
  · rw [pciWrite_dev c v hd]
    rfl
  · rw [pciWrite_miss (b := .pb) c v hlist hno]
    rfl

/-- Settles O39. -/
theorem pbConfigurationDoesNothing : Obligations.PbConfigurationDoesNothing :=
  ⟨fun n a v => ⟨decode_mkReq 0x0A n a v, decode_mkReq 0x0B n a v⟩,
    fun _ c addr v hs => ⟨exec_pbCfgRead hs c addr v, exec_pbCfgWrite hs c addr v⟩⟩

/-! ### A change of the state that a data path does not see -/

/-- A change of the state that the checks of R204 do not see, nor the data calls to the devices of bus `b`, and that
commutes with what a data path on `b` does. -/
structure UnseenByBus (b : Bus) (f : State → State) : Prop extends UnseenByChecks f where
  list  : ∀ s, devices (f s) b = devices s b
  draws : ∀ s, (f s).draws = s.draws
  put   : ∀ s i d p, putData (f s) ⟨b, i⟩ d p = f (putData s ⟨b, i⟩ d p)
  emits : ∀ s ev, emit (f s) ev = f (emit s ev)

section
variable {b : Bus} {f : State → State} (hf : UnseenByBus b f) (c : ByteCount) (a v : Word) (s : State)
include hf

theorem deviceRead_mapState (i : Nat) (d : Device) :
    deviceRead ⟨b, i⟩ d c a v (f s) = (deviceRead ⟨b, i⟩ d c a v s).mapState f := by
  simp only [deviceRead, hf.draws, hf.put, Txn.mapState]

theorem deviceWrite_mapState (i : Nat) (d : Device) :
    deviceWrite ⟨b, i⟩ d c a v (f s) = (deviceWrite ⟨b, i⟩ d c a v s).mapState f := by
  simp only [deviceWrite, hf.draws, hf.put, Txn.mapState]

theorem pciRead_mapState : pciRead b c a v (f s) = (pciRead b c a v s).mapState f := by
  simp only [pciRead, hf.list, hf.emits]
  cases dataRoute (devices s b) a with
  | empty => rfl
  | dev i d => exact deviceRead_mapState hf c a v s i d
  | miss => rfl

theorem pciWrite_mapState : pciWrite b c a v (f s) = (pciWrite b c a v s).mapState f := by
  simp only [pciWrite, hf.list, hf.emits]
  cases dataRoute (devices s b) a with
  | empty => rfl
  | dev i d => exact deviceWrite_mapState hf c a v s i d
  | miss => rfl

end

/-! ### Port Q sees its own list only -/

/-- The state with all that belongs to ports S and B replaced: their device lists and `BR.cfg`. -/
def withFabric (l l' : List Device) (m : Memory) (s : State) : State := { s with sb := l, br := l', brCfg := m }

theorem withFabric_unseen (l l' : List Device) (m : Memory) : UnseenByBus .pb (withFabric l l' m) where
  faulted _ := rfl
  ready _ := rfl
  response _ _ := rfl
  raise _ _ _ := rfl
  list _ := rfl
  draws _ := rfl
  put _ _ _ _ := rfl
  emits _ _ := rfl

/-- Settles O58: the bodies of the four operations of port Q commute with the replacement. -/
theorem portQSeesOnlyItsOwnList : Obligations.PortQSeesOnlyItsOwnList := by
  intro i s l l' m hi
  have hf := withFabric_unseen l l' m
  cases i with
  | pbRead n a v => exact transact_mapState hf.toUnseenByChecks s _ (fun c => pciRead_mapState hf c a v s) n
  | pbWrite n a v => exact transact_mapState hf.toUnseenByChecks s _ (fun c => pciWrite_mapState hf c a v s) n
  | pbCfgRead n a v =>
    exact transact_mapState (body := fun _ s => .done s .noopCfg v) hf.toUnseenByChecks s _ (fun _ => rfl) n
  | pbCfgWrite n a v =>
    exact transact_mapState (body := fun _ s => .done s .noopCfg v) hf.toUnseenByChecks s _ (fun _ => rfl) n
  | _ => cases hi

/-! ### Ports S and B do not see the list of port Q -/

/-- The state with the device list of port Q replaced. -/
def withPb (l : List Device) (s : State) : State := { s with pb := l }

@[simp] theorem withPb_sb (l : List Device) (s : State) : (withPb l s).sb = s.sb := rfl

theorem withPb_unseen (l : List Device) {b : Bus} (hb : b ≠ .pb) : UnseenByBus b (withPb l) where
  faulted _ := rfl
  ready _ := rfl
  response _ _ := rfl
  raise _ _ _ := rfl
  list _ := by cases b with
    | pb => exact absurd rfl hb
    | _ => rfl
  draws _ := rfl
  put _ _ _ _ := by cases b with
    | pb => exact absurd rfl hb
    | _ => rfl
  emits _ _ := rfl

/-- A body that sees neither of the two lists beside the bridge's changes neither, so that it commutes with a
replacement of the second alone. -/
theorem mapState_withPb_of_withOtherLists {body : State → Txn} {s : State}
    (h : ∀ l l', body (withOtherLists l l' s) = (body s).mapState (withOtherLists l l')) (l : List Device) :
    body (withPb l s) = (body s).mapState (withPb l) := by
  have hkeeps : body s = (body s).mapState (withOtherLists s.sb s.pb) := h s.sb s.pb
  have hreplaced : body (withPb l s) = (body s).mapState (withOtherLists s.sb l) := h s.sb l
  rw [hreplaced]
  cases hbody : body s with
  | bounds b off => rfl
  | done t o v =>
    rw [hbody] at hkeeps
    have ht : t = withOtherLists s.sb s.pb t := (Txn.done.inj hkeeps).1
    have hsb : t.sb = s.sb := by rw [ht]; rfl
    simp only [Txn.mapState, withOtherLists, withPb, ← hsb]

section
variable (l : List Device) (c : ByteCount) (a v : Word) (s : State)

theorem brCfgRead_withPb : brCfgRead c a v (withPb l s) = (brCfgRead c a v s).mapState (withPb l) :=
  mapState_withPb_of_withOtherLists (fun l l' => brCfgRead_withOtherLists l l' c a v s) l

theorem brCfgWrite_withPb : brCfgWrite c a v (withPb l s) = (brCfgWrite c a v s).mapState (withPb l) :=
  mapState_withPb_of_withOtherLists (fun l l' => brCfgWrite_withOtherLists l l' c a v s) l

theorem sbRead_withPb : sbRead c a v (withPb l s) = (sbRead c a v s).mapState (withPb l) := by
  simp only [sbRead, withPb_sb]
  cases sbRoute s.sb a with
  | direct i d => exact deviceRead_mapState (withPb_unseen l (by decide)) c a v s i d
  | cfgWin =>
    by_cases hfwd : s.fwdCfgAtSb = true
    · have hfwd' : (withPb l s).fwdCfgAtSb = true := hfwd
      simp only [if_pos hfwd, if_pos hfwd', brCfgRead_withPb]
    · have hfwd' : ¬ (withPb l s).fwdCfgAtSb = true := hfwd
      simp only [if_neg hfwd, if_neg hfwd']
      rfl
  | pciWin => exact pciRead_mapState (withPb_unseen l (by decide)) c a v s
  | miss => rfl

theorem sbWrite_withPb : sbWrite c a v (withPb l s) = (sbWrite c a v s).mapState (withPb l) := by
  simp only [sbWrite, withPb_sb]
  cases sbRoute s.sb a with
  | direct i d => exact deviceWrite_mapState (withPb_unseen l (by decide)) c a v s i d
  | cfgWin =>
    by_cases hfwd : s.fwdCfgAtSb = true
    · have hfwd' : (withPb l s).fwdCfgAtSb = true := hfwd
      simp only [if_pos hfwd, if_pos hfwd', brCfgWrite_withPb]
    · have hfwd' : ¬ (withPb l s).fwdCfgAtSb = true := hfwd
      simp only [if_neg hfwd, if_neg hfwd']
      rfl
  | pciWin => exact pciWrite_mapState (withPb_unseen l (by decide)) c a v s
  | miss => rfl

end

/-- The bodies of the six operations of ports S and B commute with a replacement of port Q's list (R164). -/
theorem exec_withPb {i : Instr} (hq : isPortQ i = false) (hdev : isDevCall i = false) (l : List Device) (s : State) :
    exec i (withPb l s) = mapNext (withPb l) (exec i s) := by
  have hbr : UnseenByBus .br (withPb l) := withPb_unseen l (by decide)
  have hf := hbr.toUnseenByChecks
  cases i with
  | sbRead n a v => exact transact_mapState hf s _ (fun c => sbRead_withPb l c a v s) n
  | sbWrite n a v => exact transact_mapState hf s _ (fun c => sbWrite_withPb l c a v s) n
  | brRead n a v => exact transact_mapState hf s _ (fun c => pciRead_mapState hbr c a v s) n
  | brWrite n a v => exact transact_mapState hf s _ (fun c => pciWrite_mapState hbr c a v s) n
  | brCfgRead n a v => exact transact_mapState hf s _ (fun c => brCfgRead_withPb l c a v s) n
  | brCfgWrite n a v => exact transact_mapState hf s _ (fun c => brCfgWrite_withPb l c a v s) n
  | pbRead _ _ _ => cases hq
  | pbWrite _ _ _ => cases hq
  | pbCfgRead _ _ _ => cases hq
  | pbCfgWrite _ _ _ => cases hq
  | _ => cases hdev

/-- Settles O57: that the list is unchanged is the replacement of it by itself. -/
theorem portsSAndBDoNotSeePortQ : Obligations.PortsSAndBDoNotSeePortQ := by
  intro i s l hq hdev
  refine ⟨exec_withPb hq hdev l s, fun t ht => ?_⟩
  have hself : exec i s = mapNext (withPb s.pb) (exec i s) := exec_withPb hq hdev s.pb s
  rw [ht] at hself
  have heq : t = withPb s.pb t := Host.Outcome.next.inj hself
  rw [heq]
  rfl

end Sys2Proof.Machine
end

section
/-! The device port (43_device_port.md R170 to R175): what each of the five calls answers when it is presented at the
device port (log entry 10), as the whole next state; and that no step changes what a device says of itself. -/

namespace Sys2Proof.Machine

/-! ### A call to an attached device is that device's own operation -/

section
variable {s : State} (hs : Accepts s) {r : DevRef} {d : Device} (hd : deviceAt? s r = some d)
include hs hd

theorem exec_devIdentify : exec (.devIdentify r) s =
    .next { s with response := some (.identity d.name d.window.start d.window.stop) } := by
  rw [exec, execDevIdentify, gate_of_accepts hs, hd]

section
variable (c : ByteCount) (addr v : Word)

theorem exec_devRead : exec (.devRead r (countField c) addr v) s = .next { setDevices s r.bus
    ((devices s r.bus).set r.pos { d with data := (dataRead r.bus d s.draws c addr v).2 }) with
    draws := s.draws + 1
    response := some (.devSlot (dataRead r.bus d s.draws c addr v).1) } :=
  callDevice_legal hs hd _ _

theorem exec_devWrite : exec (.devWrite r (countField c) addr v) s = .next { setDevices s r.bus
    ((devices s r.bus).set r.pos { d with data := dataWrite r.bus d s.draws c addr v }) with
    draws := s.draws + 1
    response := some .devDone } :=
  callDevice_legal hs hd _ _

theorem exec_devCfgRead : exec (.devCfgRead r (countField c) addr v) s =
    settle (encode (.devCfgRead r (countField c) addr v)) .devCfgSlot s (deviceCfgRead r d c addr v s) :=
  callDevice_legal hs hd _ _

theorem exec_devCfgWrite : exec (.devCfgWrite r (countField c) addr v) s =
    settle (encode (.devCfgWrite r (countField c) addr v)) (fun o _ => .devCfgDone o) s
      (deviceCfgWrite r d c addr v s) :=
  callDevice_legal hs hd _ _

end

end

/-! ### The data path (R171, R172) -/

section
variable {d : Device} {q : Nat} (h : d.data = .param q) (b : Bus) (k : Nat) (c : ByteCount) (addr v : Word)
include h

/-- What an OPEN device answers and becomes is the free value of log entry 4. -/
theorem dataRead_param : dataRead b d k c addr v =
    ((Config.dataRead d.id k q addr c v).1, .param (Config.dataRead d.id k q addr c v).2) := by
  rw [dataRead, h]

theorem dataWrite_param : dataWrite b d k c addr v =
    .param (Config.dataWrite d.id k q addr c (lowBytes (bytes c) v)) := by
  rw [dataWrite, h]

end

/-- Settles O40. -/
theorem devReadIsTheDevicesChoice : Obligations.DevReadIsTheDevicesChoice :=
  ⟨fun _ _ _ _ => rfl, fun _ _ _ c addr slotIn hs hd => exec_devRead hs hd c addr slotIn,
    fun b _ k _ c addr slotIn h => dataRead_param h b k c addr slotIn⟩

/-- Settles O41: the bytes of the data that the free value sees are those of `slotByte_lowBytes`. -/
theorem devWriteIsTheDevicesChoice : Obligations.DevWriteIsTheDevicesChoice :=
  ⟨fun _ _ _ _ => rfl, fun _ _ _ c addr data hs hd => exec_devWrite hs hd c addr data,
    fun b _ k _ c addr data h => dataWrite_param h b k c addr data, fun n _ v hj => slotByte_lowBytes n v hj⟩

/-! ### The configuration path (R173 to R175) -/

/-- Settles O43: the two sides of the span check, and the bytes of the slot by `slotByte_copyToSlot`. -/
theorem devCfgReadReturnsBufferBytes : Obligations.DevCfgReadReturnsBufferBytes := by
  refine ⟨fun _ _ _ _ => rfl, fun s r d m c addr slotIn hs hd hpci => ?_⟩
  rw [exec_devCfgRead hs hd]
  refine ⟨fun hspan => ?_, fun hspan => ?_⟩
  · rw [deviceCfgRead_pci hpci hspan]
    exact ⟨_, rfl, fun k hk => slotByte_copyToSlot slotIn m _ _ hk⟩
  · rw [deviceCfgRead_bounds r c slotIn s hpci hspan]
    rfl

/-- Settles O44: the two sides of the span check, and the bytes of the buffer by `copyFromSlot_read`. -/
theorem devCfgWriteStoresTheLowBytes : Obligations.DevCfgWriteStoresTheLowBytes := by
  refine ⟨fun _ _ _ _ => rfl, fun s r d m c addr data hs hd hpci hm => ?_⟩
  rw [exec_devCfgWrite hs hd]
  refine ⟨fun hspan => ?_, fun hspan => ?_⟩
  · rw [deviceCfgWrite_pci hpci hspan]
    exact ⟨_, rfl, copyFromSlot_wf hm _ data _, copyFromSlot_read hm _ data _⟩
  · rw [deviceCfgWrite_bounds r c data s hpci hspan]
    rfl

/-- Settles O45: the branch of an MMIO device stands before the span check. -/
theorem mmioConfigurationDoesNothing : Obligations.MmioConfigurationDoesNothing := by
  intro s r d c addr v hs hd hmmio
  rw [exec_devCfgRead hs hd, exec_devCfgWrite hs hd, deviceCfgRead_mmio r c v s hmmio,
    deviceCfgWrite_mmio r c v s hmmio]
  exact ⟨rfl, rfl⟩

/-! ### What a device says of itself (R170) -/

/-- Blocks of one topology have the same descriptors behind each port (R25). -/
theorem SameTopology.map_devices {s t : State} (h : SameTopology s t) (b : Bus) :
    (devices t b).map descriptorOf = (devices s b).map descriptorOf := by
  cases b with
  | sb => exact h.sb
  | br => exact h.br
  | pb => exact h.pb

/-- A device keeps its place and its descriptor where the topology is kept (R25, R83). -/
theorem SameTopology.exists_deviceAt? {s t : State} (h : SameTopology s t) {r : DevRef} {d : Device}
    (hd : deviceAt? s r = some d) : ∃ e, deviceAt? t r = some e ∧ descriptorOf e = descriptorOf d := by
  have hmap : (deviceAt? t r).map descriptorOf = some (descriptorOf d) := by
    rw [deviceAt?, ← List.getElem?_map, h.map_devices, List.getElem?_map]
    exact congrArg _ hd
  exact Option.map_eq_some_iff.1 hmap

/-- Settles O46: the triple is part of the descriptor, which no step changes. -/
theorem devIdentifyReturnsTheDescriptor : Obligations.DevIdentifyReturnsTheDescriptor := by
  refine ⟨fun _ _ _ _ => rfl, fun s r d hs hd => exec_devIdentify hs hd, fun s t r d hd hstep ht => ?_⟩
  obtain ⟨e, he, hsame⟩ := (noStepChangesTheTopology s t hstep).exists_deviceAt? hd
  obtain ⟨-, hname, hwindow, -⟩ := Descriptor.mk.inj hsame
  rw [exec_devIdentify ht he, hname, hwindow]

end Sys2Proof.Machine
end

section
/-! Misses and diagnostic events (60_exceptions.md R200 to R202, R211): what of a block a miss leaves, the slot that its
response carries, and how many events a transaction reports. -/

namespace Sys2Proof.Machine

/-- The response of a request is that of a completed effect with the response's outcome: a model fault gives none. -/
theorem exec_answers {i : Instr} {s t : State} {o : OutcomeTag} {v : Word} (h : exec i s = .next t)
    (hr : t.response = some (.rsp o v)) :
    ∃ u, Effect s (target i s) o u ∧ t = { u with response := some (.rsp o v) } := by
  have hx := exec_cases i s
  rw [h] at hx
  cases hx with
  | raises _ _ => cases hr
  | completes resp _ he ho =>
    cases hr
    cases ho _ _ rfl
    exact ⟨_, he, rfl⟩

/-! ### Events (R211) -/

/-- An effect reports at most one event. -/
theorem Effect.events {s t : State} {g : Target} {o : OutcomeTag} (h : Effect s g o t) :
    t.events = s.events ∨ ∃ e, t.events = s.events ++ [e] := by
  cases h with
  | same => exact .inl rfl
  | event ev => exact .inr ⟨ev, rfl⟩
  | data => exact .inl (putData_events ..)
  | devCfg => exact .inl (putDevice_events ..)
  | brCfg => exact .inl rfl

/-- Only a miss is reported. -/
theorem Effect.events_of_not_miss {s t : State} {g : Target} {o : OutcomeTag} (h : Effect s g o t)
    (ho : outcomeClass o = none) : t.events = s.events := by
  cases h with
  | same => rfl
  | event _ hmiss => exact absurd ho hmiss
  | data => exact putData_events ..
  | devCfg => exact putDevice_events ..
  | brCfg => rfl

/-- Settles O56: a model fault reports nothing, and an effect at most one event, on a miss. -/
theorem transactionEmitsAtMostOneEvent : Obligations.TransactionEmitsAtMostOneEvent := by
  intro i s t h
  refine ⟨?_, fun o v hr ho => ?_⟩
  · exact exec_keeps (P := fun t => t.events = s.events ∨ ∃ e, t.events = s.events ++ [e]) h
      (fun _ _ => .inl rfl) fun _ _ _ he => he.events
  · obtain ⟨u, he, rfl⟩ := exec_answers h hr
    exact he.events_of_not_miss ho

/-! ### What a miss leaves (R202) -/

theorem sameState_of_miss {i : Instr} {s t : State} {o : OutcomeTag} {v : Word} (h : exec i s = .next t)
    (hr : t.response = some (.rsp o v)) (ho : outcomeClass o ≠ none) : SameState s t ∧ t.draws = s.draws := by
  obtain ⟨u, he, rfl⟩ := exec_answers h hr
  rcases he.of_miss ho with rfl | ⟨ev, rfl⟩
  · exact ⟨sameState_withOutputs u u.events _, rfl⟩
  · exact ⟨sameState_withOutputs s (s.events ++ [ev]) _, rfl⟩

/-! ### The slot of the response (R201) -/

/-- Whatever the body completes with, its outcome and its slot are related by `P`. -/
def Txn.AnswersBy (P : OutcomeTag → Word → Prop) : Txn → Prop
  | .done _ o v => P o v
  | .bounds _ _ => True

section
variable {P : OutcomeTag → Word → Prop} {rec : PortRecord} {s t : State} {o : OutcomeTag} {v : Word}

theorem settle_answersBy {x : Txn} (hx : x.AnswersBy P) (h : settle rec .rsp s x = .next t)
    (hr : t.response = some (.rsp o v)) : P o v := by
  cases x with
  | done =>
    cases h
    cases hr
    exact hx
  | bounds =>
    cases h
    cases hr

/-- What relates outcome and slot of the body at every byteCount relates those of the response. -/
theorem transact_answersBy {n : Byte} {body : ByteCount → Txn} (hb : ∀ c, (body c).AnswersBy P) (hs : Accepts s)
    (h : transact rec n s body = .next t) (hr : t.response = some (.rsp o v)) : P o v := by
  cases hn : legalCount n with
  | false =>
    rw [transact_illegal hs hn] at h
    cases h
    cases hr
  | true =>
    obtain ⟨c, rfl⟩ := exists_countField hn
    rw [transact_legal hs] at h
    exact settle_answersBy (hb c) h hr

end

/-- The route on which a read misses with an outcome; none for an outcome that is no miss (R200, R201). -/
def missRoute? : OutcomeTag → Option MissRoute
  | .missSbUnmapped => some .sbMiss
  | .sbCfgWindow => some .sbCfgWin
  | .missPciEmpty => some .pciEmpty
  | .missPciUnmapped => some .pciMiss
  | .cfgNotAttached => some .brNotAttached
  | .cfgUnknownNumber => some .brUnknown
  | .hitDevice | .hitBridgeCfg | .noopCfg => none

/-- On a miss the slot is `MissSlot` of the route and of the slot as sent. -/
def IsSentinel (slotIn : Word) (o : OutcomeTag) (v : Word) : Prop :=
  ∀ r, missRoute? o = some r → v = missSlot r slotIn

theorem done_isSentinel_of_not_miss (s : State) {o : OutcomeTag} (slotIn v : Word) (h : missRoute? o = none) :
    (Txn.done s o v).AnswersBy (IsSentinel slotIn) := by
  intro r hr
  cases h.symm.trans hr

theorem done_isSentinel_missSlot (s : State) {o : OutcomeTag} {r : MissRoute} (slotIn : Word)
    (h : missRoute? o = some r) : (Txn.done s o (missSlot r slotIn)).AnswersBy (IsSentinel slotIn) := by
  intro r' hr
  cases h.symm.trans hr
  rfl

/-- The slot of a write is the data, on every outcome (R82). -/
def IsEcho (data : Word) (_ : OutcomeTag) (v : Word) : Prop := v = data

section
variable (b : Bus) (c : ByteCount) (a v : Word) (s : State)

theorem deviceCfgRead_isSentinel (r : DevRef) (d : Device) :
    (deviceCfgRead r d c a v s).AnswersBy (IsSentinel v) := by
  unfold deviceCfgRead
  split
  · exact done_isSentinel_of_not_miss _ _ _ rfl
  · split
    · trivial
    · exact done_isSentinel_of_not_miss _ _ _ rfl

theorem pciRead_isSentinel : (pciRead b c a v s).AnswersBy (IsSentinel v) := by
  unfold pciRead
  split
  · exact done_isSentinel_missSlot _ v rfl
  · exact done_isSentinel_of_not_miss _ _ _ rfl
  · exact done_isSentinel_missSlot _ v rfl

theorem brCfgRead_isSentinel : (brCfgRead c a v s).AnswersBy (IsSentinel v) := by
  unfold brCfgRead
  split
  · split
    · trivial
    · exact done_isSentinel_of_not_miss _ _ _ rfl
  · exact done_isSentinel_missSlot _ v rfl
  · exact done_isSentinel_missSlot _ v rfl
  · exact deviceCfgRead_isSentinel ..

theorem sbRead_isSentinel : (sbRead c a v s).AnswersBy (IsSentinel v) := by
  unfold sbRead
  split
  · exact done_isSentinel_of_not_miss _ _ _ rfl
  · split
    · exact brCfgRead_isSentinel ..
    · exact done_isSentinel_missSlot _ v rfl
  · exact pciRead_isSentinel ..
  · exact done_isSentinel_missSlot _ v rfl

theorem deviceCfgWrite_isEcho (r : DevRef) (d : Device) : (deviceCfgWrite r d c a v s).AnswersBy (IsEcho v) := by
  unfold deviceCfgWrite
  split
  · rfl
  · split
    · trivial
    · rfl

theorem pciWrite_isEcho : (pciWrite b c a v s).AnswersBy (IsEcho v) := by
  unfold pciWrite
  split <;> rfl

theorem brCfgWrite_isEcho : (brCfgWrite c a v s).AnswersBy (IsEcho v) := by
  unfold brCfgWrite
  split
  · split
    · trivial
    · rfl
  · rfl
  · rfl
  · exact deviceCfgWrite_isEcho ..

theorem sbWrite_isEcho : (sbWrite c a v s).AnswersBy (IsEcho v) := by
  unfold sbWrite
  split
  · rfl
  · split
    · exact brCfgWrite_isEcho ..
    · rfl
  · exact pciWrite_isEcho ..
  · rfl

end

section
variable {i : Instr} {s t : State} {o : OutcomeTag} {v : Word} {n : Byte} {a w : Word} (h : exec i s = .next t)
  (hr : t.response = some (.rsp o v))
include h hr

/-- A read that misses returns the sentinel of its route (R201). -/
theorem exec_read_isSentinel (hi : i ∈ [Instr.sbRead n a w, .brRead n a w, .brCfgRead n a w, .pbRead n a w]) :
    IsSentinel w o v := by
  have hs := accepts_of_exec h
  fin_cases hi
  · exact transact_answersBy (fun c => sbRead_isSentinel c a w s) hs h hr
  · exact transact_answersBy (fun c => pciRead_isSentinel .br c a w s) hs h hr
  · exact transact_answersBy (fun c => brCfgRead_isSentinel c a w s) hs h hr
  · exact transact_answersBy (fun c => pciRead_isSentinel .pb c a w s) hs h hr

/-- A write returns its data, whether it hits or misses (R82). -/
theorem exec_write_isEcho (hi : i ∈ [Instr.sbWrite n a w, .brWrite n a w, .brCfgWrite n a w, .pbWrite n a w]) :
    IsEcho w o v := by
  have hs := accepts_of_exec h
  fin_cases hi
  · exact transact_answersBy (fun c => sbWrite_isEcho c a w s) hs h hr
  · exact transact_answersBy (fun c => pciWrite_isEcho .br c a w s) hs h hr
  · exact transact_answersBy (fun c => brCfgWrite_isEcho c a w s) hs h hr
  · exact transact_answersBy (fun c => pciWrite_isEcho .pb c a w s) hs h hr

end

/-- Settles O53: the effect of a miss is at most an event, and the slot of a read is `MissSlot` of its route. -/
theorem missReturnsItsSentinelAndChangesNoState : Obligations.MissReturnsItsSentinelAndChangesNoState := by
  intro i s t o v h hr ho
  refine ⟨sameState_of_miss h hr ho, fun n a w hi => ?_, fun n a w hi => exec_write_isEcho h hr hi⟩
  have hslot := exec_read_isSentinel h hr hi
  refine ⟨?_, ?_, ?_⟩
  · rintro (rfl | rfl)
    · exact hslot .sbMiss rfl
    · exact hslot .sbCfgWin rfl
  · rintro (rfl | rfl | rfl)
    · exact hslot .pciMiss rfl
    · exact hslot .pciEmpty rfl
    · exact hslot .brNotAttached rfl
  · rintro rfl
    exact hslot .brUnknown rfl

end Sys2Proof.Machine
end

section
/-! Bring-up and what it opens (70_reset_and_hazards.md R231, R232, R235): the configured state, the closed ports before
it, and that every well-formed upstream transaction completes or records a span fault. -/

namespace Sys2Proof.Machine

/-- A configuration that fails a check of R24 has no run (R231 step 1). -/
theorem bringUp_of_not_ok {c : Configuration} (h : configurationOk c = false) : bringUp c = none := by
  rw [bringUp_eq, h]
  rfl

/-- Settles O12: what is brought up is `State.broughtUp`, and the two operations write different fields. -/
theorem bringUpGivesTheConfiguredState : Obligations.BringUpGivesTheConfiguredState :=
  ⟨fun _ h => bringUp_of_not_ok h, fun _ h => ⟨_, bringUp_of_ok h, rfl, rfl, rfl, rfl, rfl, rfl, rfl⟩,
    fun _ _ => ⟨rfl, rfl⟩⟩

/-- Settles O9: the step and every instruction stand behind check 1 of R204. -/
theorem noTransactionBeforeBringUp : Obligations.NoTransactionBeforeBringUp := by
  intro s hready hfaulted
  refine ⟨gate_of_not_ready hready hfaulted _, fun i => ?_⟩
  obtain ⟨k, hk⟩ := exec_eq_gate i s
  rw [hk, gate_of_not_ready hready hfaulted]

/-- Every upstream instruction is a transaction with the byteCount of its record (R82, R204). -/
theorem exec_eq_transact {i : Instr} (hi : isDevCall i = false) (s : State) :
    ∃ n body, i.byteCountField? = some n ∧ exec i s = transact (encode i) n s body := by
  cases i with
  | devRead _ _ _ _ => cases hi
  | devWrite _ _ _ _ => cases hi
  | devCfgRead _ _ _ _ => cases hi
  | devCfgWrite _ _ _ _ => cases hi
  | devIdentify _ => cases hi
  | _ => exact ⟨_, _, rfl, rfl⟩

/-- A well-formed upstream transaction is the settling of its body: no check stops it. -/
theorem exec_eq_settle {i : Instr} {s : State} (hs : Accepts s) (hi : isDevCall i = false)
    (hwf : i.wellFormed = true) : ∃ x, exec i s = settle (encode i) .rsp s x := by
  obtain ⟨n, body, hn, hexec⟩ := exec_eq_transact hi s
  obtain ⟨c, rfl⟩ := exists_countField ((wellFormed_of_byteCount hn).symm.trans hwf)
  exact ⟨body c, hexec.trans (transact_legal hs body)⟩

/-- An instruction that answers a response to a request leaves no model fault. -/
theorem faulted_of_answer {i : Instr} {s t : State} {o : OutcomeTag} {v : Word} (h : exec i s = .next t)
    (hr : t.response = some (.rsp o v)) : t.faulted = none := by
  obtain ⟨u, he, rfl⟩ := exec_answers h hr
  exact he.keeps.1.trans (accepts_of_exec h).2

/-- Settles O59: the body completes, or its span check raises the model fault. -/
theorem upstreamTransactionsAlwaysComplete : Obligations.UpstreamTransactionsAlwaysComplete := by
  intro i s hs hi hwf
  obtain ⟨x, hx⟩ := exec_eq_settle hs hi hwf
  cases x with
  | done t o v => exact ⟨_, hx, .inl ⟨o, v, rfl, faulted_of_answer hx rfl⟩⟩
  | bounds b off => exact ⟨_, hx, .inr ⟨b, off, encode i, rfl, rfl⟩⟩

end Sys2Proof.Machine
end

section
/-! Issuers and outputs (70_reset_and_hazards.md R237; 10_state.md R22, R34): what an issuer can send and see, and that
earlier outputs have no part in what a transaction does. -/

namespace Sys2Proof.Machine

/-! ### Requests only -/

/-- The record of a device call is no request (R80, R83). -/
theorem isDevCall_of_encode {i : Instr} {w : ReqWord} (h : encode i = .req w) : isDevCall i = false := by
  cases i with
  | devRead _ _ _ _ => cases h
  | devWrite _ _ _ _ => cases h
  | devCfgRead _ _ _ _ => cases h
  | devCfgWrite _ _ _ _ => cases h
  | devIdentify _ => cases h
  | _ => rfl

theorem isDevCall_of_decode_req {w : ReqWord} {i : Instr} (h : decode (.req w) = .ok i) : isDevCall i = false :=
  isDevCall_of_encode (encodeOfDecodeIsTheRecord.1 w i h)

/-- With no call pending the arbiter serves an issuer. -/
theorem arbitrate_request {s u : State} {r : PortRecord} (hc : s.deviceCalls = []) (h : arbitrate s = some (r, u)) :
    ∃ w, r = .req w := by
  rcases arbitrate_took h with ⟨k, w, q, hr, -, -⟩ | ⟨c, cs, -, hcalls, -⟩
  · exact ⟨w, hr⟩
  · cases hc.symm.trans hcalls

/-- With no call pending there is none after a step, which adds none. -/
theorem step_keeps_no_calls {s t : State} (hc : s.deviceCalls = []) (h : step s = .next t) : t.deviceCalls = [] := by
  rcases stepKeepsEachIssuersOrder s t h with ⟨-, -, -, ht, -⟩ | ⟨-, -, -, -, -, ht, -⟩ | ⟨c, hcalls, -, -⟩
  · exact ht
  · exact ht.trans hc
  · cases hc.symm.trans hcalls

/-! ### Slots only -/

/-- An upstream instruction answers nothing or a response to a request. -/
theorem exec_response {i : Instr} {s t : State} (hi : isDevCall i = false) (h : exec i s = .next t) :
    t.response = none ∨ ∃ o v, t.response = some (.rsp o v) := by
  have hs := accepts_of_exec h
  cases hwf : i.wellFormed with
  | false =>
    cases h.symm.trans (exec_of_not_wellFormed hs hwf)
    exact .inl rfl
  | true =>
    obtain ⟨u, hu, hcases⟩ := upstreamTransactionsAlwaysComplete i s hs hi hwf
    cases h.symm.trans hu
    rcases hcases with ⟨o, v, hr, -⟩ | ⟨-, -, -, hr, -⟩
    · exact .inr ⟨o, v, hr⟩
    · exact .inl hr

/-- With no call pending the response after a step is that before it, none, or that of a request. -/
theorem step_response {s t : State} (hc : s.deviceCalls = []) (h : step s = .next t) :
    t.response = s.response ∨ t.response = none ∨ ∃ o v, t.response = some (.rsp o v) := by
  have hstep : StepCases s (.next t) := h ▸ step_cases s
  generalize hx : (Host.Outcome.next t : Result) = x at hstep
  cases hstep with
  | runs harb hi =>
    obtain ⟨w, rfl⟩ := arbitrate_request hc harb
    exact .inr (exec_response (isDevCall_of_decode_req hi) hx.symm)
  | badRequest _ _ => cases hx; exact .inr (.inl rfl)
  | idle _ => cases hx; exact .inl rfl
  | refuses _ => cases hx
  | stops _ => cases hx

theorem issuerSlot_eq_none {resp : Response} (h : ∀ o v, resp ≠ .rsp o v) : issuerSlot resp = none := by
  cases resp with
  | rsp o v => exact absurd rfl (h o v)
  | _ => rfl

/-! ### Earlier outputs -/

/-- The state with the events `e` before its own, and with another last response. -/
def withHistory (e : List Event) (x : Option Response) (s : State) : State := withOutputs s (e ++ s.events) x

/-- The state with the events `e` before its own. -/
def withEarlierEvents (e : List Event) (s : State) : State := { s with events := e ++ s.events }

theorem withEarlierEvents_unseen (e : List Event) : UnseenByChecks (withEarlierEvents e) :=
  ⟨fun _ => rfl, fun _ => rfl, fun _ _ => rfl, fun _ _ _ => rfl⟩

section
variable (e : List Event) (x : Option Response) (s : State)

@[simp] theorem withHistory_sb : (withHistory e x s).sb = s.sb := rfl
@[simp] theorem withHistory_br : (withHistory e x s).br = s.br := rfl
@[simp] theorem withHistory_brCfg : (withHistory e x s).brCfg = s.brCfg := rfl
@[simp] theorem withHistory_fwd : (withHistory e x s).fwdCfgAtSb = s.fwdCfgAtSb := rfl
@[simp] theorem withHistory_draws : (withHistory e x s).draws = s.draws := rfl

@[simp] theorem devices_withHistory (b : Bus) : devices (withHistory e x s) b = devices s b := by
  cases b <;> rfl

@[simp] theorem deviceAt?_withHistory (r : DevRef) : deviceAt? (withHistory e x s) r = deviceAt? s r :=
  deviceAt?_withOutputs ..

@[simp] theorem emit_withHistory (ev : Event) : emit (withHistory e x s) ev = withHistory e x (emit s ev) := by
  simp only [emit, withHistory, withOutputs, List.append_assoc]

@[simp] theorem putDevice_withHistory (r : DevRef) (d : Device) :
    putDevice (withHistory e x s) r d = withHistory e x (putDevice s r d) := by
  cases r with | mk b p => cases b <;> rfl

@[simp] theorem putData_withHistory (r : DevRef) (d : Device) (p : DataPath) :
    putData (withHistory e x s) r d p = withHistory e x (putData s r d p) := by
  cases r with | mk b p => cases b <;> rfl

/-! What a transaction's body does, it does after any history. -/

theorem mapState_of_onlyReports {body : State → Txn} {s : State} (h : OnlyReports s body) :
    body (withHistory e x s) = (body s).mapState (withHistory e x) := by
  rcases h with ⟨b, off, h⟩ | ⟨new, o, v, h⟩
  · have hbody : body s = .bounds b off := h s.events s.response
    rw [hbody]
    exact h _ _
  · have hbody : body s = .done (withOutputs s (s.events ++ new) s.response) o v := h s.events s.response
    rw [hbody, withHistory, h, List.append_assoc]
    rfl

variable (c : ByteCount) (a v : Word) (r : DevRef) (d : Device) (b : Bus)

theorem deviceRead_withHistory :
    deviceRead r d c a v (withHistory e x s) = (deviceRead r d c a v s).mapState (withHistory e x) := by
  simp only [deviceRead, withHistory_draws, putData_withHistory, Txn.mapState]

theorem deviceWrite_withHistory :
    deviceWrite r d c a v (withHistory e x s) = (deviceWrite r d c a v s).mapState (withHistory e x) := by
  simp only [deviceWrite, withHistory_draws, putData_withHistory, Txn.mapState]

theorem deviceCfgRead_withHistory :
    deviceCfgRead r d c a v (withHistory e x s) = (deviceCfgRead r d c a v s).mapState (withHistory e x) :=
  mapState_of_onlyReports e x (deviceCfgRead_onlyReports s r d c a v)

theorem deviceCfgWrite_withHistory :
    deviceCfgWrite r d c a v (withHistory e x s) = (deviceCfgWrite r d c a v s).mapState (withHistory e x) := by
  simp only [deviceCfgWrite, putDevice_withHistory]
  cases d.config with
  | mmio => rfl
  | pci buf =>
    dsimp only
    split <;> rfl

theorem pciRead_withHistory :
    pciRead b c a v (withHistory e x s) = (pciRead b c a v s).mapState (withHistory e x) := by
  simp only [pciRead, devices_withHistory, emit_withHistory]
  cases dataRoute (devices s b) a with
  | empty => rfl
  | dev i d => exact deviceRead_withHistory e x s c a v ⟨b, i⟩ d
  | miss => rfl

theorem pciWrite_withHistory :
    pciWrite b c a v (withHistory e x s) = (pciWrite b c a v s).mapState (withHistory e x) := by
  simp only [pciWrite, devices_withHistory, emit_withHistory]
  cases dataRoute (devices s b) a with
  | empty => rfl
  | dev i d => exact deviceWrite_withHistory e x s c a v ⟨b, i⟩ d
  | miss => rfl

theorem brCfgRead_withHistory :
    brCfgRead c a v (withHistory e x s) = (brCfgRead c a v s).mapState (withHistory e x) :=
  mapState_of_onlyReports e x (brCfgRead_onlyReports s c a v)

theorem brCfgWrite_withHistory :
    brCfgWrite c a v (withHistory e x s) = (brCfgWrite c a v s).mapState (withHistory e x) := by
  simp only [brCfgWrite, withHistory_br, withHistory_brCfg, emit_withHistory]
  cases cfgRoute s.br a with
  | self off =>
    dsimp only
    split <;> rfl
  | unknown dn => rfl
  | notAttached dn => rfl
  | dev i d => exact deviceCfgWrite_withHistory e x s c a v ⟨.br, i⟩ d

theorem sbRead_withHistory :
    sbRead c a v (withHistory e x s) = (sbRead c a v s).mapState (withHistory e x) := by
  simp only [sbRead, withHistory_sb, withHistory_fwd, emit_withHistory]
  cases sbRoute s.sb a with
  | direct i d => exact deviceRead_withHistory e x s c a v ⟨.sb, i⟩ d
  | cfgWin =>
    dsimp only
    split
    · exact brCfgRead_withHistory e x s c a v
    · rfl
  | pciWin => exact pciRead_withHistory e x s c a v .br
  | miss => rfl

theorem sbWrite_withHistory :
    sbWrite c a v (withHistory e x s) = (sbWrite c a v s).mapState (withHistory e x) := by
  simp only [sbWrite, withHistory_sb, withHistory_fwd, emit_withHistory]
  cases sbRoute s.sb a with
  | direct i d => exact deviceWrite_withHistory e x s c a v ⟨.sb, i⟩ d
  | cfgWin =>
    dsimp only
    split
    · exact brCfgWrite_withHistory e x s c a v
    · rfl
  | pciWin => exact pciWrite_withHistory e x s c a v .br
  | miss => rfl

/-! The end of a transaction replaces the last response, so that of the history the events alone remain. -/

theorem gate_withHistory (k : Result) :
    gate (withHistory e x s) (mapNext (withEarlierEvents e) k) = mapNext (withEarlierEvents e) (gate s k) :=
  gate_mapNext (withEarlierEvents_unseen e) s k

variable (rec : PortRecord) (mk : OutcomeTag → Word → Response) (n : Byte)

theorem settle_withHistory (y : Txn) : settle rec mk (withHistory e x s) (y.mapState (withHistory e x)) =
    mapNext (withEarlierEvents e) (settle rec mk s y) := by
  cases y <;> rfl

theorem withCount_withHistory (k : ByteCount → Result) :
    withCount rec n (withHistory e x s) (fun c => mapNext (withEarlierEvents e) (k c)) =
      mapNext (withEarlierEvents e) (withCount rec n s k) :=
  withCount_mapNext (withEarlierEvents_unseen e) s rec n k

theorem transact_withHistory {body : ByteCount → State → Txn}
    (hbody : ∀ c, body c (withHistory e x s) = (body c s).mapState (withHistory e x)) :
    transact rec n (withHistory e x s) (fun c => body c (withHistory e x s)) =
      mapNext (withEarlierEvents e) (transact rec n s fun c => body c s) := by
  simp only [transact, hbody, settle_withHistory, withCount_withHistory, gate_withHistory]

theorem callDevice_withHistory {body : ByteCount → Device → State → Txn}
    (hbody : ∀ c d, body c d (withHistory e x s) = (body c d s).mapState (withHistory e x)) :
    callDevice rec r n (withHistory e x s) mk (fun c d => body c d (withHistory e x s)) =
      mapNext (withEarlierEvents e) (callDevice rec r n s mk fun c d => body c d s) := by
  simp only [callDevice, deviceAt?_withHistory, ← gate_withHistory e x, ← withCount_withHistory e x]
  cases deviceAt? s r with
  | none => rfl
  | some d => simp only [hbody, settle_withHistory]

theorem execDevIdentify_withHistory :
    execDevIdentify r (withHistory e x s) = mapNext (withEarlierEvents e) (execDevIdentify r s) := by
  simp only [execDevIdentify, deviceAt?_withHistory, ← gate_withHistory e x]
  cases deviceAt? s r <;> rfl

end

/-- What an instruction does depends on no earlier output: the last response is replaced, and the events only grow. -/
theorem exec_withHistory (i : Instr) (s : State) (e : List Event) (x : Option Response) :
    exec i (withHistory e x s) = mapNext (withEarlierEvents e) (exec i s) := by
  cases i with
  | sbRead n a v => exact transact_withHistory e x s _ n fun c => sbRead_withHistory e x s c a v
  | sbWrite n a v => exact transact_withHistory e x s _ n fun c => sbWrite_withHistory e x s c a v
  | brRead n a v => exact transact_withHistory e x s _ n fun c => pciRead_withHistory e x s c a v .br
  | brWrite n a v => exact transact_withHistory e x s _ n fun c => pciWrite_withHistory e x s c a v .br
  | brCfgRead n a v => exact transact_withHistory e x s _ n fun c => brCfgRead_withHistory e x s c a v
  | brCfgWrite n a v => exact transact_withHistory e x s _ n fun c => brCfgWrite_withHistory e x s c a v
  | pbRead n a v => exact transact_withHistory e x s _ n fun c => pciRead_withHistory e x s c a v .pb
  | pbWrite n a v => exact transact_withHistory e x s _ n fun c => pciWrite_withHistory e x s c a v .pb
  | pbCfgRead n a v => exact transact_withHistory e x s _ n (body := fun _ s => .done s .noopCfg v) fun _ => rfl
  | pbCfgWrite n a v => exact transact_withHistory e x s _ n (body := fun _ s => .done s .noopCfg v) fun _ => rfl
  | devRead r n a v => exact callDevice_withHistory e x s r _ _ n fun c d => deviceRead_withHistory e x s c a v r d
  | devWrite r n a v => exact callDevice_withHistory e x s r _ _ n fun c d => deviceWrite_withHistory e x s c a v r d
  | devCfgRead r n a v =>
    exact callDevice_withHistory e x s r _ _ n fun c d => deviceCfgRead_withHistory e x s c a v r d
  | devCfgWrite r n a v =>
    exact callDevice_withHistory e x s r _ _ n fun c d => deviceCfgWrite_withHistory e x s c a v r d
  | devIdentify r => exact execDevIdentify_withHistory e x s r

/-- Settles O60: a decoded request is no call, a step without a pending call performs a request, and earlier outputs
have no part in what an instruction does. -/
theorem issuersSendRequestsAndSeeSlots : Obligations.IssuersSendRequestsAndSeeSlots :=
  ⟨fun _ _ => isDevCall_of_decode_req, fun _ _ hc h => ⟨step_keeps_no_calls hc h, step_response hc h⟩,
    fun _ _ => rfl, fun _ => issuerSlot_eq_none, exec_withHistory⟩

end Sys2Proof.Machine
end
